-- ==== Sys2Proof/Word.lean ====
section
/-! DEFINITION. The content of one memory cell and the range of a cell value (spec/00_scope.md R5, spec/20_memory.md R41). -/

namespace Sys2Proof

/-- What one cell holds, as the integer it denotes: addressing is by whole cell and no access can see a byte layout
(R41: "A model holds a cell as an integer and needs no byte layout"). That the integer fits in W bits is `isCellValue`. -/
abbrev Word := Int

/-- INT_MIN of a W-bit cell (R5). -/
def intMin (w : Nat) : Int := -((2 ^ (w - 1) : Nat) : Int)

/-- INT_MAX of a W-bit cell (R5). -/
def intMax (w : Nat) : Int := ((2 ^ (w - 1) : Nat) : Int) - 1

/-- R5: v is a cell value, that is a signed two's-complement integer of w bits. -/
def isCellValue (w : Nat) (v : Int) : Bool := decide (intMin w ≤ v) && decide (v ≤ intMax w)

end Sys2Proof
end

