-- ==== Sys2Proof/Config.lean ====
section
/-! DEFINITION. The parameters fixed for this hardware (spec/00_scope.md R5 to R8, spec/10_state.md R33). LEN and NIN are set by
each launch (R6, R7) and are no constants. The spec leaves no value free during a run, so no opaque constant stands here. -/

namespace Sys2Proof.Config

/-- R5: the width of a cell in bits; "Value for this hardware: `W = 64`" (decision D1). -/
def W : Nat := 64

/-- R6: the greatest LEN a launch may have, `INT_MAX - 3`, as a function of the width. -/
def maxLen (w : Nat) : Int := intMax w - 3

/-- R33: the entry point, address 0, "fixed and not configurable". -/
def entry : Nat := 0

/-- R60, R63: the number of cells of the longest instruction (ADD and MUL). -/
def longestInstr : Nat := 4

end Sys2Proof.Config
end

