-- ==== Sys2Proof/Syntax.lean ====
section
/-! DEFINITION. The instructions as the spec's closed tagged variant (spec/10_state.md R31, spec/30_encoding.md R63, R64,
spec/40_operand_resolution.md R80): one constructor for each row of spec/opcode_table.json. -/

namespace Sys2Proof

/-- R66, R80: the two parameter modes. -/
inductive Mode where
  | position
  | immediate
  deriving DecidableEq, Repr

/-- R80: a Parameter, "a pair `(mode, raw_value)`". A destination is a Parameter too (R67: its digit is checked, then not used). -/
structure Param where
  mode : Mode
  raw  : Word
  deriving DecidableEq, Repr

/-- R31, R63: "`Add{lhs, rhs, dest}`, `Mul{lhs, rhs, dest}`, `Input{dest}`, `Output{src}`, `Halt`". -/
inductive Instr where
  /-- ADD (R90). -/
  | add (lhs rhs dest : Param)
  /-- MUL (R91). -/
  | mul (lhs rhs dest : Param)
  /-- IN (R100). -/
  | input (dest : Param)
  /-- OUT (R101). -/
  | output (src : Param)
  /-- HALT (R110). -/
  | halt
  deriving DecidableEq, Repr

end Sys2Proof
end

