-- ==== Sys2Proof/WellFormed.lean ====
section
/-! DEFINITION. Which instruction terms the encoding can express: each raw value is a whole cell value
(spec/30_encoding.md R65, "a cell value in [INT_MIN, INT_MAX]"). Modes and roles admit every constructor (R66, R67, R80). -/

namespace Sys2Proof

/-- R65: the raw value of an operand is a cell value. -/
def Param.wf (p : Param) : Bool := isCellValue Config.W p.raw

/-- Every operand of the instruction can stand in an operand cell. -/
def Instr.wf : Instr → Bool
  | .add lhs rhs dest => lhs.wf && rhs.wf && dest.wf
  | .mul lhs rhs dest => lhs.wf && rhs.wf && dest.wf
  | .input dest => dest.wf
  | .output src => src.wf
  | .halt => true

end Sys2Proof
end

