-- ==== Sys2Proof/Decode.lean ====
section
/-! DEFINITION. The opcode decoder (spec/30_encoding.md R60 to R73), total on any list of cells, then the encoder, the assembly
notation of R74 and the host's table words. The decoder sees the cells from PC on ("a read-only view of Memory starting at
PC", R72); a cell the list lacks is one beyond the end of memory. -/

namespace Sys2Proof

/-! ### Decimal fields -/

/-- R9: the quotient rounded toward zero. -/
def tdiv (a b : Int) : Int := Int.tdiv a b

/-- R9: the remainder of `tdiv`, zero or of the sign of a. -/
def trem (a b : Int) : Int := Int.tmod a b

/-- R9: `digit_k(v)`, the decimal digit of weight 10^k of a non-negative v. -/
def digit (k : Nat) (v : Int) : Int := trem (tdiv v ((10 ^ k : Nat) : Int)) 10

/-- R61: the opcode field of an instruction word. -/
def opcodeField (iw : Word) : Int := trem iw 100

/-- R61: the mode digit of operand i of an instruction word. -/
def modeDigit (i : Nat) (iw : Word) : Int := digit (2 + i) iw

/-! ### The opcode map and the formats -/

/-- R64: the closed set of opcodes. -/
inductive Opcode where
  | add
  | mul
  | input
  | output
  | halt
  deriving DecidableEq, Repr

/-- R64: the opcode numbers 1, 2, 3, 4, 99. -/
def Opcode.number : Opcode → Int
  | .add => 1
  | .mul => 2
  | .input => 3
  | .output => 4
  | .halt => 99

/-- R64, R70: the opcode a field value names; every other value names none. -/
def opcodeOf (op : Int) : Option Opcode :=
  if op = 1 then some .add
  else if op = 2 then some .mul
  else if op = 3 then some .input
  else if op = 4 then some .output
  else if op = 99 then some .halt
  else none

/-- R63: the number of operand cells. -/
def Opcode.arity : Opcode → Nat
  | .add => 3
  | .mul => 3
  | .input => 1
  | .output => 1
  | .halt => 0

/-- R63: `width(op) = arity(op) + 1`. -/
def Opcode.width (op : Opcode) : Nat := op.arity + 1

/-- The opcode of an instruction. -/
def Instr.opcode : Instr → Opcode
  | .add _ _ _ => .add
  | .mul _ _ _ => .mul
  | .input _ => .input
  | .output _ => .output
  | .halt => .halt

/-- R60: how many cells an instruction occupies. -/
def Instr.width (i : Instr) : Nat := i.opcode.width

/-! ### The decoder -/

/-- Why cells do not decode (R70, R72). -/
inductive DecodeError where
  /-- R70, case 1: the opcode field is not one of the five. -/
  | invalidOpcode (op : Int)
  /-- R70, case 2: a mode digit other than 0 or 1. -/
  | invalidMode (digit : Int)
  /-- R72: the cell this far after the instruction word lies beyond the end of memory (0 is the word itself). -/
  | missingCell (offset : Nat)
  deriving DecidableEq, Repr

/-- R66: "`0` → Position, `1` → Immediate; any other digit is a fatal `InvalidParameterMode` fault." -/
def decodeMode (d : Int) : Except DecodeError Mode :=
  if d = 0 then .ok .position
  else if d = 1 then .ok .immediate
  else .error (.invalidMode d)

/-- R65, R72: the raw value of operand i, from the cells after the instruction word. -/
def operandCell (rest : List Word) (i : Nat) : Except DecodeError Word :=
  match rest[i]? with
  | some r => .ok r
  | none => .error (.missingCell (i + 1))

/-- R63, R72, format F3: the digits d0, d1, d2 are checked in that order, then the three operand cells are read in order. -/
def decodeF3 (iw : Word) (rest : List Word) : Except DecodeError (Param × Param × Param) := do
  let m0 ← decodeMode (modeDigit 0 iw)
  let m1 ← decodeMode (modeDigit 1 iw)
  let m2 ← decodeMode (modeDigit 2 iw)
  let r0 ← operandCell rest 0
  let r1 ← operandCell rest 1
  let r2 ← operandCell rest 2
  return (⟨m0, r0⟩, ⟨m1, r1⟩, ⟨m2, r2⟩)

/-- R63, R72, format F1: the digit d0 is checked, then the one operand cell is read. -/
def decodeF1 (iw : Word) (rest : List Word) : Except DecodeError Param := do
  let m0 ← decodeMode (modeDigit 0 iw)
  let r0 ← operandCell rest 0
  return ⟨m0, r0⟩

/-- R72: `Decode`, over the cells from PC on. -/
def decode : List Word → Except DecodeError Instr
  | [] => .error (.missingCell 0)
  | iw :: rest =>
    match opcodeOf (opcodeField iw) with
    | none => .error (.invalidOpcode (opcodeField iw))
    | some .add => (decodeF3 iw rest).map fun p => .add p.1 p.2.1 p.2.2
    | some .mul => (decodeF3 iw rest).map fun p => .mul p.1 p.2.1 p.2.2
    | some .input => (decodeF1 iw rest).map .input
    | some .output => (decodeF1 iw rest).map .output
    | some .halt => .ok .halt

/-! ### The encoder -/

/-- R66: the mode digit of a mode. -/
def Mode.digit : Mode → Int
  | .position => 0
  | .immediate => 1

/-- R61, R73 ("CBA01"): the word of format F3. -/
def encodeF3 (op : Opcode) (lhs rhs dest : Param) : List Word :=
  [op.number + 100 * lhs.mode.digit + 1000 * rhs.mode.digit + 10000 * dest.mode.digit, lhs.raw, rhs.raw, dest.raw]

/-- R61, R73 ("00A03"): the word of format F1. -/
def encodeF1 (op : Opcode) (p : Param) : List Word :=
  [op.number + 100 * p.mode.digit, p.raw]

/-- R60, R69: the cells of an instruction, every unexamined digit of the word zero. -/
def encode : Instr → List Word
  | .add lhs rhs dest => encodeF3 .add lhs rhs dest
  | .mul lhs rhs dest => encodeF3 .mul lhs rhs dest
  | .input dest => encodeF1 .input dest
  | .output src => encodeF1 .output src
  | .halt => [Opcode.number .halt]

/-! ### The assembly notation -/

/-- R74: one line; a source is written as a Parameter (`[n]` is Position n, `#n` Immediate n), a destination as its address. -/
inductive AsmLine where
  | add (s0 s1 : Param) (d : Word)
  | mul (s0 s1 : Param) (d : Word)
  | input (d : Word)
  | output (s0 : Param)
  | halt
  | data (vs : List Word)
  deriving DecidableEq, Repr

/-- R74: the cells of one line; "A destination is always written `[n]` and always assembled with mode digit 0". -/
def AsmLine.cells : AsmLine → List Word
  | .add s0 s1 d => encode (.add s0 s1 ⟨.position, d⟩)
  | .mul s0 s1 d => encode (.mul s0 s1 ⟨.position, d⟩)
  | .input d => encode (.input ⟨.position, d⟩)
  | .output s0 => encode (.output s0)
  | .halt => encode .halt
  | .data vs => vs

/-- R74, R75: "lines are placed at consecutive addresses from 0": element k of the image is the cell at address k. -/
def assemble (lines : List AsmLine) : List Word := lines.flatMap AsmLine.cells

/-! ### Instructions as the bits of consecutive cells (the host's table words; assumption log 7) -/

/-- R5, R9: the cell whose w bits are the low w bits of n, read in two's complement. -/
def cellOfBits (w n : Nat) : Word :=
  if n % 2 ^ w < 2 ^ (w - 1) then ((n % 2 ^ w : Nat) : Int) else ((n % 2 ^ w : Nat) : Int) - ((2 ^ w : Nat) : Int)

/-- The cells of an instruction whose low `nbits` bits are `w` and whose further bits are 0: bit 0 is the least significant
bit of the first cell, and each later cell's bits count on from it. -/
def tableCells (nbits w : Nat) : List Word :=
  [0, 1, 2, 3].map fun k => cellOfBits Config.W (w % 2 ^ nbits / 2 ^ (Config.W * k))

/-- The instruction the decoder reads from a table word. -/
def decodeTableWord (nbits w : Nat) : Option Instr := (decode (tableCells nbits w)).toOption

end Sys2Proof
end

