-- ==== Sys2Proof/Machine/State.lean ====
section
/-! DEFINITION. The six elements of state of one CORE (spec/10_state.md R20), the state after reset (R33, R160), and the
reasons a step of the model can stop. -/

namespace Sys2Proof.Machine

/-- R26: the state of the execution loop's state machine. -/
inductive RunState where
  | running
  | halted
  | faulted
  deriving DecidableEq, Repr

/-- R27, R130: the kinds of fault the CORE raises, and None. -/
inductive FaultKind where
  | none
  | invalidOpcode
  | invalidParameterMode
  | outOfBoundsAccess
  | inputExhausted
  | arithmeticOverflow
  deriving DecidableEq, Repr

/-- R27: FAULT, the record of the fault that ended the run. -/
structure FaultRecord where
  kind    : FaultKind
  value   : Int
  address : Int
  deriving DecidableEq, Repr

/-- R22: MEM and its length LEN. `cells` lists (address, cell) pairs in one canonical form: addresses strictly rising, all
below `len`, no entry equal to what an unlisted cell reads as (assumption log 1). -/
structure Memory where
  len   : Nat
  cells : List (Nat × Word)
  deriving DecidableEq, Repr

/-- R20: the complete architectural state of one CORE. -/
structure State where
  /-- MEM and LEN (R22, R6). -/
  mem   : Memory
  /-- PC (R23). -/
  pc    : Nat
  /-- RUN (R26). -/
  run   : RunState
  /-- FAULT (R27). -/
  fault : FaultRecord
  /-- INQ, the unconsumed input, head first (R28). -/
  inq   : List Word
  /-- OUT, the output log in emission order (R29). -/
  out   : List Word
  deriving DecidableEq, Repr

/-- What the model's step can stop with. The CORE's own faults (R130) are no stop: taking one is a next state whose RUN is
Faulted (R137, assumption log 4). -/
inductive Fault where
  /-- Raised by `step` when RUN is Halted or Faulted: "no step is enabled" (R111, R116). Safe: the hardware does nothing there
  until the next launch (assumption log 3). -/
  | notRunning (run : RunState)
  deriving DecidableEq, Repr

/-- What the model gives no meaning. No arm of `exec` answers one. -/
inductive Refusal where
  /-- Raised by an arm of `exec` whose instruction has no meaning yet. Safe: nothing is claimed of it. -/
  | notModelled (mnemonic : String)
  deriving DecidableEq, Repr

/-- R27, R33: the fault record while no fault has been recorded, (None, 0, 0) (decision D18). -/
def FaultRecord.clear : FaultRecord := ⟨.none, 0, 0⟩

/-- R33, R160: the state `Launch([], [])` gives: the reset values of PC, RUN, FAULT and OUT, with the empty image and the empty
input sequence (the spec gives MEM, LEN and INQ no value of their own: assumption log 2). -/
def State.reset : State :=
  { mem := ⟨0, []⟩, pc := 0, run := .running, fault := .clear, inq := [], out := [] }

/-- s with another memory. -/
def State.setMem (s : State) (m : Memory) : State := { s with mem := m }
/-- s with another PC. -/
def State.setPc (s : State) (n : Nat) : State := { s with pc := n }
/-- s with another RUN. -/
def State.setRun (s : State) (r : RunState) : State := { s with run := r }
/-- s with another FAULT record. -/
def State.setFault (s : State) (r : FaultRecord) : State := { s with fault := r }
/-- s with another input queue. -/
def State.setInq (s : State) (q : List Word) : State := { s with inq := q }
/-- s with another output log. -/
def State.setOut (s : State) (q : List Word) : State := { s with out := q }

end Sys2Proof.Machine
end

