-- ==== Sys2Proof/Machine/Flags.lean ====
section
/-! DEFINITION. The CORE has no flags and no condition codes (spec/10_state.md R25). The one condition its ALU computes is
whether an exact result is a cell value (spec/41_arithmetic.md R92 to R94). -/

namespace Sys2Proof.Machine

/-- R94: the exact result if it is a cell value of w bits; none is an overflow ("never wrapped modulo 2^W, never saturated and
never truncated"). -/
def narrow (w : Nat) (exact : Int) : Option Word := if isCellValue w exact then some exact else none

/-- R92: the exact sum. -/
def exactSum (a b : Word) : Int := a + b

/-- R93: the exact product. -/
def exactProduct (a b : Word) : Int := a * b

end Sys2Proof.Machine
end

