-- ==== Sys2Proof/Machine/Ops.lean ====
section
/-! DEFINITION. The operations the instructions share: the memory controller (spec/20_memory.md R42, R43), taking a fault
(spec/60_exceptions.md R137), the sequencer (spec/43_control.md R112, R113), the two channels (spec/42_io.md R102, R103), the
fetch (spec/30_encoding.md R72) and the launch (spec/70_reset_and_hazards.md R160). -/

namespace Sys2Proof.Machine

/-! ### The cells as sparse data -/

/-- What a cell below LEN that the list does not name holds: 0. It is a way of writing cells down, not a default content: a
launch gives every cell its value (R33), and one whose value is 0 is left out of the list (assumption log 1). -/
def unlisted : Word := 0

/-- The content of the cell at address a. -/
def lookup : List (Nat × Word) → Nat → Word
  | [], _ => unlisted
  | (k, x) :: rest, a => if k = a then x else lookup rest a

/-- The list without its entry for address a. -/
def eraseCell : List (Nat × Word) → Nat → List (Nat × Word)
  | [], _ => []
  | (k, x) :: rest, a => if k = a then eraseCell rest a else (k, x) :: eraseCell rest a

/-- The list with an entry put in at its place in the order of addresses. -/
def insertCell : List (Nat × Word) → Nat → Word → List (Nat × Word)
  | [], a, v => [(a, v)]
  | (k, x) :: rest, a, v => if a < k then (a, v) :: (k, x) :: rest else (k, x) :: insertCell rest a v

/-- The list after the cell at address a has been given the value v. -/
def storeCell (l : List (Nat × Word)) (a : Nat) (v : Word) : List (Nat × Word) :=
  if v = unlisted then eraseCell l a else insertCell (eraseCell l a) a v

/-- Addresses from `lo` on, strictly rising, and no entry equal to what an unlisted cell reads as. -/
def risingFrom : Nat → List (Nat × Word) → Bool
  | _, [] => true
  | lo, (k, x) :: rest => decide (lo ≤ k) && decide (x ≠ unlisted) && risingFrom (k + 1) rest

/-- The canonical form of memory: rising, and every entry below LEN. -/
def Memory.wf (m : Memory) : Bool := risingFrom 0 m.cells && m.cells.all fun c => decide (c.1 < m.len)

/-- R46: a names a cell. -/
def Memory.valid (m : Memory) (a : Int) : Bool := decide (0 ≤ a) && decide (a < (m.len : Int))

/-- The content of the cell at address a, if there is one. -/
def Memory.read (m : Memory) (a : Int) : Option Word :=
  if m.valid a then some (lookup m.cells a.toNat) else none

/-- Memory after the cell at address a, if there is one, has been given the value v. -/
def Memory.write (m : Memory) (a : Int) (v : Word) : Option Memory :=
  if m.valid a then some { m with cells := storeCell m.cells a.toNat v } else none

/-- The entries of the cells at addresses i, i+1, ... that hold these values. -/
def entriesFrom : Nat → List Word → List (Nat × Word)
  | _, [] => []
  | i, v :: vs => if v = unlisted then entriesFrom (i + 1) vs else (i, v) :: entriesFrom (i + 1) vs

/-- R33, R75: the memory of an image: cell i is element i, LEN its length. -/
def Memory.ofImage (image : List Word) : Memory := ⟨image.length, entriesFrom 0 image⟩

/-! ### Fault records (R130) -/

/-- R131: InvalidOpcode carries the opcode field and PC (decision D5). -/
def FaultRecord.invalidOpcode (op : Int) (pc : Nat) : FaultRecord := ⟨.invalidOpcode, op, pc⟩
/-- R132: InvalidParameterMode carries the digit and PC (decision D6). -/
def FaultRecord.invalidParameterMode (d : Int) (pc : Nat) : FaultRecord := ⟨.invalidParameterMode, d, pc⟩
/-- R133: OutOfBoundsAccess carries the offending address itself (decision D25). -/
def FaultRecord.outOfBounds (a : Int) : FaultRecord := ⟨.outOfBoundsAccess, 0, a⟩
/-- R134: InputExhausted has no payload. -/
def FaultRecord.inputExhausted : FaultRecord := ⟨.inputExhausted, 0, 0⟩
/-- R135: ArithmeticOverflow carries PC (decision D2). -/
def FaultRecord.arithmeticOverflow (pc : Nat) : FaultRecord := ⟨.arithmeticOverflow, 0, pc⟩

/-- R137: fault entry: FAULT <- the record, RUN <- Faulted, and nothing else. There is no return from it (R139): the only way
out is a new launch (`relaunch`). -/
def takeFault (r : FaultRecord) (s : State) : State := (s.setFault r).setRun .faulted

/-- R72, R133: the record of a decode error in the instruction at PC. -/
def decodeFault (pc : Nat) : DecodeError → FaultRecord
  | .invalidOpcode op => .invalidOpcode op pc
  | .invalidMode d => .invalidParameterMode d pc
  | .missingCell offset => .outOfBounds ((pc : Int) + offset)

/-! ### The memory controller -/

/-- R42: `MemRead(a, 1)`. -/
def memRead (s : State) (a : Int) : Except FaultRecord Word :=
  match s.mem.read a with
  | some v => .ok v
  | none => .error (.outOfBounds a)

/-- R43: `MemWrite(a, 1, v)`. -/
def memWrite (s : State) (a : Int) (v : Word) : Except FaultRecord State :=
  match s.mem.write a v with
  | some m => .ok (s.setMem m)
  | none => .error (.outOfBounds a)

/-! ### The channels -/

/-- R35, R100, R102: `pop`: the head of the input queue and the state without it; none if the queue is empty. -/
def popInput (s : State) : Option (Word × State) :=
  match s.inq with
  | [] => none
  | v :: rest => some (v, s.setInq rest)

/-- R35, R101, R103: `append(v)`. -/
def appendOutput (v : Word) (s : State) : State := s.setOut (s.out ++ [v])

/-! ### The sequencer -/

/-- R112, R113: after a successful execute of an instruction of this width: the advance, or the defensive halt where it would
leave memory (PC kept: decision D15). -/
def advance (width : Nat) (s : State) : State :=
  if s.mem.len ≤ s.pc + width then s.setRun .halted else s.setPc (s.pc + width)

/-- R111: how a step of an instruction other than HALT ends: its effect committed and PC moved on, or, if it raised, the fault
taken in the state before it (R137, R138). -/
def finish (width : Nat) (s : State) : Except FaultRecord State → Host.Outcome State Fault Refusal
  | .ok t => .next (advance width t)
  | .error r => .next (takeFault r s)

/-! ### Fetch -/

/-- The contents of up to n cells from address a on, as far as memory goes. -/
def cellsFrom (m : Memory) : Nat → Nat → List Word
  | 0, _ => []
  | n + 1, a =>
    match m.read a with
    | some v => v :: cellsFrom m n (a + 1)
    | none => []

/-- R72: the decoder's view of memory: the instruction word at PC and the cells that can be its operands. -/
def fetch (s : State) : List Word := cellsFrom s.mem Config.longestInstr s.pc

/-! ### Launch (R160) -/

/-- R164: the launch premises at cell width w. -/
def launchable (w : Nat) (image inputs : List Word) : Bool :=
  image.all (isCellValue w) && inputs.all (isCellValue w) && decide ((image.length : Int) ≤ Config.maxLen w)

/-- R160: the state a launch gives at cell width w; none where R164 refuses it ("it is not a run"). -/
def launchAt (w : Nat) (image inputs : List Word) : Option State :=
  if launchable w image inputs then
    some { mem := .ofImage image, pc := Config.entry, run := .running, fault := .clear, inq := inputs, out := [] }
  else none

/-- R160: `Launch(image, inputs)` of this hardware. -/
def launch (image inputs : List Word) : Option State := launchAt Config.W image inputs

/-- R160, R139: a launch from a state already reached: only where RUN is Halted or Faulted; nothing of that state survives. -/
def relaunch (s : State) (image inputs : List Word) : Option State :=
  match s.run with
  | .running => none
  | .halted => launch image inputs
  | .faulted => launch image inputs

/-! ### Placing an instruction for the next step (assumption log 7) -/

/-- The memory with these cells at addresses a, a+1, ..., long enough to hold them. -/
def placeCells (m : Memory) : Nat → List Word → Memory
  | _, [] => m
  | a, v :: vs => placeCells ⟨max m.len (a + 1), storeCell m.cells a v⟩ (a + 1) vs

/-- s with these cells where the next step fetches, and the next step enabled: RUN is Running, so FAULT is clear. -/
def placeInstr (s : State) (cells : List Word) : State :=
  ((s.setMem (placeCells s.mem s.pc cells)).setRun .running).setFault .clear

end Sys2Proof.Machine
end

