-- ==== Sys2Proof/Machine/Operands.lean ====
section
/-! DEFINITION. The addressing-mode resolver (spec/40_operand_resolution.md R80 to R86): every operand form the hardware has. -/

namespace Sys2Proof.Machine

/-- R83: `Resolve(m, r)`, the effective value of a source operand: Position reads the cell (R81), Immediate is the raw value
itself (R82). -/
def resolve (s : State) (p : Param) : Except FaultRecord Word :=
  match p.mode with
  | .immediate => .ok p.raw
  | .position => memRead s p.raw

/-- R84: the address a destination operand names: the raw value, whatever its mode digit. -/
def destAddress (p : Param) : Int := p.raw

/-- R84: the write to a destination operand, bounds-checked at the moment of the write; the cell is not read. -/
def writeDest (s : State) (p : Param) (v : Word) : Except FaultRecord State := memWrite s (destAddress p) v

end Sys2Proof.Machine
end

