-- ==== Sys2Proof/Machine/Arithmetic.lean ====
section
/-! DEFINITION. ADD and MUL (spec/41_arithmetic.md R90, R91). -/

namespace Sys2Proof.Machine

/-- R90, R91: the shared effect: resolve operand 0, then operand 1, compute, check the result, write the destination (decision
D12). `check` is the overflow check; the step uses `narrow` at this hardware's width. -/
def arithmetic (check : Int → Option Word) (op : Word → Word → Int) (lhs rhs dest : Param) (s : State) :
    Except FaultRecord State := do
  let a ← resolve s lhs
  let b ← resolve s rhs
  match check (op a b) with
  | some v => writeDest s dest v
  | none => .error (.arithmeticOverflow s.pc)

/-- R90 with the step's end (R112, R113), at cell width w. -/
def execAddAt (w : Nat) (lhs rhs dest : Param) (s : State) : Host.Outcome State Fault Refusal :=
  finish (Opcode.width .add) s (arithmetic (narrow w) exactSum lhs rhs dest s)

/-- R91 with the step's end (R112, R113), at cell width w. -/
def execMulAt (w : Nat) (lhs rhs dest : Param) (s : State) : Host.Outcome State Fault Refusal :=
  finish (Opcode.width .mul) s (arithmetic (narrow w) exactProduct lhs rhs dest s)

/-- ADD (R90): "Memory[dest] ← resolve(lhs) + resolve(rhs)." -/
def execAdd (lhs rhs dest : Param) (s : State) : Host.Outcome State Fault Refusal := execAddAt Config.W lhs rhs dest s

/-- MUL (R91): "Memory[dest] ← resolve(lhs) * resolve(rhs)." -/
def execMul (lhs rhs dest : Param) (s : State) : Host.Outcome State Fault Refusal := execMulAt Config.W lhs rhs dest s

end Sys2Proof.Machine
end

