-- ==== Sys2Proof/Machine/Control.lean ====
section
/-! DEFINITION. HALT (spec/43_control.md R110). -/

namespace Sys2Proof.Machine

/-- HALT (R110): RUN <- Halted, and PC stays at the address of the HALT word. -/
def execHalt (s : State) : Host.Outcome State Fault Refusal := .next (s.setRun .halted)

end Sys2Proof.Machine
end

