-- ==== Sys2Proof/Machine/InputOutput.lean ====
section
/-! DEFINITION. IN and OUT (spec/42_io.md R100, R101). -/

namespace Sys2Proof.Machine

/-- R100: the empty queue is judged first, then the destination, and only then is the head removed and stored, so a fault
leaves the queue as it was (decision D13). -/
def inputEffect (dest : Param) (s : State) : Except FaultRecord State :=
  match popInput s with
  | none => .error .inputExhausted
  | some (v, t) => writeDest t dest v

/-- IN (R100): "pop the head of the input queue (FIFO); Memory[dest] ← popped value." -/
def execInput (dest : Param) (s : State) : Host.Outcome State Fault Refusal :=
  finish (Opcode.width .input) s (inputEffect dest s)

/-- R101: the value of the source goes to the end of the output log. -/
def outputEffect (src : Param) (s : State) : Except FaultRecord State := do
  let v ← resolve s src
  return appendOutput v s

/-- OUT (R101): "append resolve(src) to the output log. No Memory mutation." -/
def execOutput (src : Param) (s : State) : Host.Outcome State Fault Refusal :=
  finish (Opcode.width .output) s (outputEffect src s)

end Sys2Proof.Machine
end

