-- ==== Sys2Proof/Machine/Dispatch.lean ====
section
/-! DEFINITION. The case analysis of `Step` (spec/43_control.md R111): one arm for each instruction. -/

namespace Sys2Proof.Machine

def exec (i : Instr) (s : State) : Host.Outcome State Fault Refusal :=
  match i with
  | .add lhs rhs dest => Sys2Proof.Machine.execAdd lhs rhs dest s
  | .mul lhs rhs dest => Sys2Proof.Machine.execMul lhs rhs dest s
  | .input dest => Sys2Proof.Machine.execInput dest s
  | .output src => Sys2Proof.Machine.execOutput src s
  | .halt => Sys2Proof.Machine.execHalt s

end Sys2Proof.Machine
end

