-- ==== Sys2Proof/Machine/Step.lean ====
section
/-! DEFINITION. `Step`, the single transition function of the CORE (spec/43_control.md R111). -/

namespace Sys2Proof.Machine

/-- R111: enabled if and only if RUN = Running; decode the instruction at PC, then execute it; a decode error is taken as the
fault it names (R137). -/
def step (s : State) : Host.Outcome State Fault Refusal :=
  match s.run with
  | .running =>
    match decode (fetch s) with
    | .ok i => exec i s
    | .error e => .next (takeFault (decodeFault s.pc e) s)
  | .halted => .fault (.notRunning .halted)
  | .faulted => .fault (.notRunning .faulted)

/-- s with a table word's cells at PC, memory long enough to hold them and RUN = Running, so that the next step runs that
instruction (assumption log 7). -/
def State.withFetchWord (s : State) (nbits w : Nat) : State := placeInstr s (tableCells nbits w)

end Sys2Proof.Machine
end

