-- ==== Sys2Proof/Machine/Unbounded.lean ====
section
/-! DEFINITION. The same CORE over the unbounded integers, the machine that spec/41_arithmetic.md R95 compares it with ("the
source's formulas give when read over the unbounded mathematical integers"). It is a yardstick: `step` does not use it. -/

namespace Sys2Proof.Machine

/-- The instructions with no overflow check. -/
def execUnbounded (i : Instr) (s : State) : Host.Outcome State Fault Refusal :=
  match i with
  | .add lhs rhs dest => finish (Opcode.width .add) s (arithmetic some exactSum lhs rhs dest s)
  | .mul lhs rhs dest => finish (Opcode.width .mul) s (arithmetic some exactProduct lhs rhs dest s)
  | .input dest => execInput dest s
  | .output src => execOutput src s
  | .halt => execHalt s

/-- `step` with no overflow check. -/
def stepUnbounded (s : State) : Host.Outcome State Fault Refusal :=
  match s.run with
  | .running =>
    match decode (fetch s) with
    | .ok i => execUnbounded i s
    | .error e => .next (takeFault (decodeFault s.pc e) s)
  | .halted => .fault (.notRunning .halted)
  | .faulted => .fault (.notRunning .faulted)

/-- The machine without the overflow check. -/
def unboundedCore : Host.Core := { State := State, Fault := Fault, Refusal := Refusal, step := stepUnbounded, reset := State.reset }

end Sys2Proof.Machine
end

