-- ==== Sys2Proof/Machine/HostPort.lean ====
section
/-! DEFINITION. What the host reads (spec/10_state.md R35, spec/43_control.md R119, R120): the status port with its numeric
codes (R26, R130), the read-back port, and the result of a run. None of it changes state. -/

namespace Sys2Proof.Machine

/-- R26: RUN as the 2-bit field an implementation exposes; 3 is never produced (decision D17). -/
def RunState.code : RunState → BitVec 2
  | .running => 0
  | .halted => 1
  | .faulted => 2

/-- R130: the numeric code of a fault kind (decision D17). -/
def FaultKind.code : FaultKind → Nat
  | .none => 0
  | .invalidOpcode => 1
  | .invalidParameterMode => 2
  | .outOfBoundsAccess => 3
  | .inputExhausted => 4
  | .arithmeticOverflow => 5

/-- R35: what the status port gives, at any time. -/
structure Status where
  run   : RunState
  fault : FaultRecord
  pc    : Nat
  deriving DecidableEq, Repr

/-- R35: read RUN, FAULT, PC. -/
def status (s : State) : Status := ⟨s.run, s.fault, s.pc⟩

/-- R166: the run has ended. -/
def State.ended (s : State) : Bool := decide (s.run ≠ .running)

/-- R35: read-back of `MEM[a]`, allowed once the run has ended, for any valid a. -/
def readBackCell (s : State) (a : Int) : Option Word := if s.ended then s.mem.read a else none

/-- R35: read-back of OUT, allowed once the run has ended. -/
def readBackOut (s : State) : Option (List Word) := if s.ended then some s.out else none

/-- R35: read-back of INQ, allowed once the run has ended. -/
def readBackInq (s : State) : Option (List Word) := if s.ended then some s.inq else none

/-- R119: what a run returns. -/
inductive RunResult where
  /-- Halted: "returns the ordered output log on success". -/
  | output (log : List Word)
  /-- Faulted: the fault record, whole; no output is implied valid. -/
  | fault (record : FaultRecord)
  deriving DecidableEq, Repr

/-- R119: the result of a run; none while it goes on. -/
def result (s : State) : Option RunResult :=
  match s.run with
  | .running => none
  | .halted => some (.output s.out)
  | .faulted => some (.fault s.fault)

/-- R120: how a host tells a HALT from the defensive halt: the word at PC ends in 99 (provided the last instruction did not
overwrite its own word). -/
def endedOnHaltWord (s : State) : Bool :=
  decide (s.run = .halted) && decide ((s.mem.read s.pc).map opcodeField = some 99)

end Sys2Proof.Machine
end

