-- ==== Sys2Proof/Safety.lean ====
section
/-! DEFINITION. The terms claims use: the invariants of every launched run (spec/10_state.md R34, spec/60_exceptions.md R130),
and a run that is safe (spec/43_control.md R115, R119). -/

namespace Sys2Proof.Machine

/-- R27, R130: what a record may hold when the run it ended has PC = pc and LEN = len. -/
def FaultRecord.legal (r : FaultRecord) (len pc : Nat) : Prop :=
  match r.kind with
  | .none => r.value = 0 ∧ r.address = 0
  | .invalidOpcode => opcodeOf r.value = none ∧ -99 ≤ r.value ∧ r.value ≤ 98 ∧ r.address = pc
  | .invalidParameterMode => 2 ≤ r.value ∧ r.value ≤ 9 ∧ r.address = pc
  | .outOfBoundsAccess => r.value = 0 ∧ (r.address < 0 ∨ (len : Int) ≤ r.address)
  | .inputExhausted => r.value = 0 ∧ r.address = 0
  | .arithmeticOverflow => r.value = 0 ∧ r.address = pc

/-- The invariants of R34 (1, 2, 3 and 5), with the length bound of R6, the record's ranges of R27 and R130, and memory's
canonical form. -/
structure State.Inv (s : State) : Prop where
  /-- Memory has its canonical form. -/
  memForm : s.mem.wf = true
  /-- R6: LEN leaves room for PC + 3. -/
  lenBound : (s.mem.len : Int) ≤ Config.maxLen Config.W
  /-- R34, 1: every cell is a cell value. -/
  cellsFit : ∀ a v, s.mem.read a = some v → isCellValue Config.W v = true
  /-- R34, 1: every input value is a cell value. -/
  inqFits : ∀ v ∈ s.inq, isCellValue Config.W v = true
  /-- R34, 1: every output value is a cell value. -/
  outFits : ∀ v ∈ s.out, isCellValue Config.W v = true
  /-- R34, 2. -/
  pcRange : s.pc < max s.mem.len 1
  /-- R34, 3: PC is even. -/
  pcEven : s.pc % 2 = 0
  /-- R34, 5. -/
  faultIffFaulted : s.fault.kind = .none ↔ s.run ≠ .faulted
  /-- R130: the record's payload is one its kind can have. -/
  faultLegal : s.fault.legal s.mem.len s.pc
  /-- R27: the record's address is a cell value. -/
  faultAddress : isCellValue Config.W s.fault.address = true

/-- A run from s is safe when it never takes a fault. -/
def SafeFrom (s : State) : Prop := ∀ (k : Nat) (t : State), Sys2Proof.core.run k s = .next t → t.run ≠ .faulted

end Sys2Proof.Machine
end

