-- ==== Sys2Proof/Certificates/Slice0/Obligations.lean ====
section
/-! DEFINITION. The statements for the provers. Each says in its docstring which rule of the spec it formalises; D<n> is a
decision of spec/92_eei_decisions.md, which the spec marks as its own choice. -/

open Sys2Proof Sys2Proof.Machine

namespace Sys2Proof.Claims

/-- a is the address of a cell of s (R46). -/
abbrev IsCell (s : State) (a : Int) : Prop := 0 ≤ a ∧ a < s.mem.len

/-- The source operand p has the value v in s: the raw value itself (R82), or the content of the cell it names (R81). -/
def SourceIs (s : State) (p : Param) (v : Word) : Prop :=
  match p.mode with
  | .immediate => v = p.raw
  | .position => s.mem.read p.raw = some v

/-- The source operand p cannot be read in s: it names no cell (R81). -/
abbrev SourceMissing (s : State) (p : Param) : Prop := p.mode = .position ∧ ¬ IsCell s p.raw

/-- From s to t the cell at a got the value v, every other cell reads as before, and LEN is the same. -/
def StoresOnly (s t : State) (a : Int) (v : Word) : Prop :=
  t.mem.len = s.mem.len ∧ t.mem.read a = some v ∧ ∀ b, b ≠ a → t.mem.read b = s.mem.read b

/-- t is s with this fault taken: FAULT and RUN written, MEM, PC, INQ and OUT as they were (R137). -/
def FaultTaken (s t : State) (kind : FaultKind) (value address : Int) : Prop :=
  t = { s with fault := ⟨kind, value, address⟩, run := .faulted }

/-- R63: the width of an instruction in cells, spelled out. -/
def widthOf : Instr → Nat
  | .add _ _ _ => 4
  | .mul _ _ _ => 4
  | .input _ => 2
  | .output _ => 2
  | .halt => 1

/-- The faults of ADD and MUL: bad operand 0, bad operand 1, overflow, bad destination, the first of them reported. -/
def ArithmeticFaults (mk : Param → Param → Param → Instr) (op : Int → Int → Int) : Prop :=
  ∀ (s : State) (lhs rhs dest : Param),
    (SourceMissing s lhs →
      ∃ t, exec (mk lhs rhs dest) s = .next t ∧ FaultTaken s t .outOfBoundsAccess 0 lhs.raw) ∧
    (∀ a, SourceIs s lhs a → SourceMissing s rhs →
      ∃ t, exec (mk lhs rhs dest) s = .next t ∧ FaultTaken s t .outOfBoundsAccess 0 rhs.raw) ∧
    (∀ a b, SourceIs s lhs a → SourceIs s rhs b → (op a b < -2 ^ 63 ∨ 2 ^ 63 - 1 < op a b) →
      ∃ t, exec (mk lhs rhs dest) s = .next t ∧ FaultTaken s t .arithmeticOverflow 0 s.pc) ∧
    (∀ a b, SourceIs s lhs a → SourceIs s rhs b → -2 ^ 63 ≤ op a b → op a b ≤ 2 ^ 63 - 1 → ¬ IsCell s (destAddress dest) →
      ∃ t, exec (mk lhs rhs dest) s = .next t ∧ FaultTaken s t .outOfBoundsAccess 0 (destAddress dest))

end Sys2Proof.Claims

open Sys2Proof.Claims

/-! ### Encoding and decoding -/

/-- The canonical words of 30_encoding.md section 3, each followed by operand cells 7, 8, 9, decode to the instruction and the
modes that section gives, and the worked example of R72 to its result. -/
def Obligations.CanonicalWordsDecode : Prop :=
  decode [1, 7, 8, 9] = .ok (.add ⟨.position, 7⟩ ⟨.position, 8⟩ ⟨.position, 9⟩) ∧
  decode [101, 7, 8, 9] = .ok (.add ⟨.immediate, 7⟩ ⟨.position, 8⟩ ⟨.position, 9⟩) ∧
  decode [1001, 7, 8, 9] = .ok (.add ⟨.position, 7⟩ ⟨.immediate, 8⟩ ⟨.position, 9⟩) ∧
  decode [1101, 7, 8, 9] = .ok (.add ⟨.immediate, 7⟩ ⟨.immediate, 8⟩ ⟨.position, 9⟩) ∧
  decode [2, 7, 8, 9] = .ok (.mul ⟨.position, 7⟩ ⟨.position, 8⟩ ⟨.position, 9⟩) ∧
  decode [102, 7, 8, 9] = .ok (.mul ⟨.immediate, 7⟩ ⟨.position, 8⟩ ⟨.position, 9⟩) ∧
  decode [1102, 7, 8, 9] = .ok (.mul ⟨.immediate, 7⟩ ⟨.immediate, 8⟩ ⟨.position, 9⟩) ∧
  decode [3, 7] = .ok (.input ⟨.position, 7⟩) ∧
  decode [4, 7] = .ok (.output ⟨.position, 7⟩) ∧
  decode [104, 7] = .ok (.output ⟨.immediate, 7⟩) ∧
  decode [99] = .ok .halt ∧
  decode [1002, 4, 3, 4, 33] = .ok (.mul ⟨.position, 4⟩ ⟨.immediate, 3⟩ ⟨.position, 4⟩)

/-- Decoding the cells of any instruction, whatever cells follow them, gives that instruction back: every mode digit, every
raw value, every destination digit (30_encoding.md R61, R63, R65). -/
def Obligations.DecodeInvertsEncode : Prop :=
  ∀ (i : Instr) (rest : List Word), decode (encode i ++ rest) = .ok i

/-- An instruction is well-formed exactly when all the cells of its encoding are cell values, and they are as many as its
width (R60, R65, and the bound W >= 16 of R5 that makes every instruction word a cell value). -/
def Obligations.WellFormedIffEncodableInCells : Prop :=
  ∀ i : Instr, (i.wf = true ↔ ∀ v ∈ encode i, isCellValue Config.W v = true) ∧ (encode i).length = widthOf i

/-- A word decodes exactly when its opcode field names one of the five instructions, its mode digits as far as the arity goes
are 0 or 1, and its operand cells are there (30_encoding.md sections 2 to 5). That is exact only with three of the spec's own
decisions: the digits above the last mode digit are not examined (D8, assumption log 6), the mode digit of a destination must be
0 or 1 too (D9), and an instruction cut off by the end of memory does not decode (D10; assumption log 5). -/
def Obligations.WordDecodesExactlyWhenLegal : Prop :=
  ∀ (iw : Word) (rest : List Word),
    (∃ i, decode (iw :: rest) = .ok i) ↔
      ∃ o : Opcode, opcodeField iw = o.number ∧ o.arity ≤ rest.length ∧
        ∀ k, k < o.arity → modeDigit k iw = 0 ∨ modeDigit k iw = 1

/-- The spec's own order of the decode checks (D7): the opcode first, then the lowest bad mode digit, then the first missing
operand cell; and the payload of each (D5, D6, D10). -/
def Obligations.DecodeReportsFirstError : Prop :=
  ∀ (iw : Word) (rest : List Word) (e : DecodeError),
    decode (iw :: rest) = .error e ↔
      ((∀ o : Opcode, opcodeField iw ≠ o.number) ∧ e = .invalidOpcode (Int.tmod iw 100)) ∨
      (∃ o : Opcode, opcodeField iw = o.number ∧
        ((∃ k, k < o.arity ∧ modeDigit k iw ≠ 0 ∧ modeDigit k iw ≠ 1 ∧ (∀ j, j < k → modeDigit j iw = 0 ∨ modeDigit j iw = 1) ∧
            e = .invalidMode (modeDigit k iw)) ∨
         ((∀ k, k < o.arity → modeDigit k iw = 0 ∨ modeDigit k iw = 1) ∧ rest.length < o.arity ∧
            e = .missingCell (rest.length + 1))))

/-- Every negative word is an invalid opcode, and the value reported is its truncated remainder, from -99 to 0 (the spec's
decision D4). -/
def Obligations.NegativeWordsAreInvalidOpcodes : Prop :=
  ∀ (iw : Int) (rest : List Word), iw < 0 →
    decode (iw :: rest) = .error (.invalidOpcode (iw - 100 * Int.tdiv iw 100)) ∧
    -99 ≤ iw - 100 * Int.tdiv iw 100 ∧ iw - 100 * Int.tdiv iw 100 ≤ 0

/-- Digits above the format's highest mode digit are not examined (the spec's decision D8): adding any multiple of 10^5 to an
ADD or MUL word, of 10^3 to an IN or OUT word, of 10^2 to a HALT word decodes the same. -/
def Obligations.HighDigitsAreNotExamined : Prop :=
  ∀ (iw n : Int) (rest : List Word), 0 ≤ iw → 0 ≤ n →
    ((opcodeField iw = 1 ∨ opcodeField iw = 2) → decode ((iw + 100000 * n) :: rest) = decode (iw :: rest)) ∧
    ((opcodeField iw = 3 ∨ opcodeField iw = 4) → decode ((iw + 1000 * n) :: rest) = decode (iw :: rest)) ∧
    (opcodeField iw = 99 → decode ((iw + 100 * n) :: rest) = decode (iw :: rest))

/-- The mode of a destination operand has no effect on ADD, MUL or IN (30_encoding.md R67, decision D9 for the digit being
legal at all). -/
def Obligations.DestinationModeHasNoEffect : Prop :=
  ∀ (s : State) (lhs rhs : Param) (m m' : Mode) (r : Word),
    exec (.add lhs rhs ⟨m, r⟩) s = exec (.add lhs rhs ⟨m', r⟩) s ∧
    exec (.mul lhs rhs ⟨m, r⟩) s = exec (.mul lhs rhs ⟨m', r⟩) s ∧
    exec (.input ⟨m, r⟩) s = exec (.input ⟨m', r⟩) s

/-! ### Memory and operands -/

/-- R42: MemRead answers at exactly the addresses of cells, and faults with the address elsewhere; it returns the value last
written there, or the launch image's value if nothing has been written. -/
def Obligations.MemReadReturnsLatestWrite : Prop :=
  (∀ (s : State) (a : Int), (IsCell s a → ∃ v, memRead s a = .ok v) ∧
    (¬ IsCell s a → memRead s a = .error ⟨.outOfBoundsAccess, 0, a⟩)) ∧
  (∀ (s t : State) (a : Int) (v : Word), memWrite s a v = .ok t →
    memRead t a = .ok v ∧ ∀ b, b ≠ a → memRead t b = memRead s b) ∧
  (∀ (image inputs : List Word) (s : State) (i : Nat) (v : Word), launch image inputs = some s → image[i]? = some v →
    memRead s i = .ok v)

/-- MemWrite succeeds at exactly the addresses of cells and changes that one cell and nothing else of the state; elsewhere it
faults with the address (20_memory.md section 2). -/
def Obligations.MemWriteChangesOneCell : Prop :=
  ∀ (s : State) (a : Int) (v : Word),
    (IsCell s a → ∃ t, memWrite s a v = .ok t ∧ StoresOnly s t a v ∧
      t.pc = s.pc ∧ t.run = s.run ∧ t.fault = s.fault ∧ t.inq = s.inq ∧ t.out = s.out) ∧
    (¬ IsCell s a → memWrite s a v = .error ⟨.outOfBoundsAccess, 0, a⟩)

/-- R81: a Position operand's value is the content of the cell it names; an address of no cell faults with that address. -/
def Obligations.PositionOperandReadsItsCell : Prop :=
  ∀ (s : State) (r : Word),
    (∀ v, s.mem.read r = some v → resolve s ⟨.position, r⟩ = .ok v) ∧
    (IsCell s r → ∃ v, resolve s ⟨.position, r⟩ = .ok v) ∧
    (r < 0 ∨ (s.mem.len : Int) ≤ r → resolve s ⟨.position, r⟩ = .error ⟨.outOfBoundsAccess, 0, r⟩)

/-- R82: an Immediate operand's value is its raw value, in every state and for every value. -/
def Obligations.ImmediateOperandIsItsRawValue : Prop :=
  ∀ (s : State) (r : Word), resolve s ⟨.immediate, r⟩ = .ok r

/-! ### The instructions -/

/-- R92: where the operands have values and their exact sum is a cell value, ADD completes: the sum goes to the destination
cell, every other cell, the queue, the log and the fault record are unchanged, and the sequencer keeps the run going or halts
it (PC and RUN: PcAdvancesByTheWidth, DefensiveHaltKeepsPcAndEffect). -/
def Obligations.AddStoresExactSum : Prop :=
  ∀ (s : State) (lhs rhs dest : Param) (a b : Int),
    SourceIs s lhs a → SourceIs s rhs b → -2 ^ 63 ≤ a + b → a + b ≤ 2 ^ 63 - 1 → IsCell s (destAddress dest) →
    ∃ t, exec (.add lhs rhs dest) s = .next t ∧ StoresOnly s t (destAddress dest) (a + b) ∧
      t.inq = s.inq ∧ t.out = s.out ∧ t.fault = s.fault ∧ (t.run = s.run ∨ t.run = .halted)

/-- R93: the same for MUL and the exact product. -/
def Obligations.MulStoresExactProduct : Prop :=
  ∀ (s : State) (lhs rhs dest : Param) (a b : Int),
    SourceIs s lhs a → SourceIs s rhs b → -2 ^ 63 ≤ a * b → a * b ≤ 2 ^ 63 - 1 → IsCell s (destAddress dest) →
    ∃ t, exec (.mul lhs rhs dest) s = .next t ∧ StoresOnly s t (destAddress dest) (a * b) ∧
      t.inq = s.inq ∧ t.out = s.out ∧ t.fault = s.fault ∧ (t.run = s.run ∨ t.run = .halted)

/-- The faults of ADD and MUL in the spec's own order (D12), the overflow among them (D2): each changes nothing but FAULT and
RUN (D14). -/
def Obligations.AddAndMulFaultInOrder : Prop :=
  ArithmeticFaults .add (fun a b => a + b) ∧ ArithmeticFaults .mul (fun a b => a * b)

/-- 42_io.md R100, the successful case: IN stores the head of the queue in the destination cell and removes it; every other
cell, the log and the fault record are unchanged. -/
def Obligations.InStoresQueueHead : Prop :=
  ∀ (s : State) (dest : Param) (v : Word) (rest : List Word), s.inq = v :: rest → IsCell s (destAddress dest) →
    ∃ t, exec (.input dest) s = .next t ∧ StoresOnly s t (destAddress dest) v ∧
      t.inq = rest ∧ t.out = s.out ∧ t.fault = s.fault ∧ (t.run = s.run ∨ t.run = .halted)

/-- R134: IN with an empty queue faults InputExhausted with no payload, before its destination is looked at, and changes
nothing else. -/
def Obligations.InOnEmptyQueueFaults : Prop :=
  ∀ (s : State) (dest : Param), s.inq = [] →
    ∃ t, exec (.input dest) s = .next t ∧ FaultTaken s t .inputExhausted 0 0

/-- IN with input and a bad destination faults OutOfBoundsAccess and keeps the head in the queue (the spec's decision D13). -/
def Obligations.InWithBadDestinationKeepsQueue : Prop :=
  ∀ (s : State) (dest : Param), s.inq ≠ [] → ¬ IsCell s (destAddress dest) →
    ∃ t, exec (.input dest) s = .next t ∧ FaultTaken s t .outOfBoundsAccess 0 (destAddress dest)

/-- R101: OUT appends the value of its source to the log and leaves every cell, the queue and the fault record as they were;
in Position mode with an address of no cell it faults and appends nothing; its canonical words are 4 (Position) and 104
(Immediate). -/
def Obligations.OutAppendsSourceValue : Prop :=
  (∀ (r : Word) (rest : List Word), decode (4 :: r :: rest) = .ok (.output ⟨.position, r⟩) ∧
    decode (104 :: r :: rest) = .ok (.output ⟨.immediate, r⟩)) ∧
  ∀ (s : State) (src : Param),
    (∀ v, SourceIs s src v → ∃ t, exec (.output src) s = .next t ∧ t.out = s.out ++ [v] ∧ t.mem = s.mem ∧
      t.inq = s.inq ∧ t.fault = s.fault ∧ (t.run = s.run ∨ t.run = .halted)) ∧
    (SourceMissing s src → ∃ t, exec (.output src) s = .next t ∧ FaultTaken s t .outOfBoundsAccess 0 src.raw)

/-- HALT sets RUN to Halted and changes nothing else, PC included (43_control.md section 1); and every non-negative word ending
in 99 is HALT, which for the words other than 99 is the spec's own decision D8 (assumption log 6). -/
def Obligations.HaltSetsRunOnly : Prop :=
  (∀ s : State, exec .halt s = .next { s with run := .halted }) ∧
  ∀ (iw : Int) (rest : List Word), 0 ≤ iw → iw % 100 = 99 → decode (iw :: rest) = .ok .halt

/-! ### The step and the sequencer -/

/-- R111: when the cells from PC on decode to an instruction, an enabled step is the execution of that instruction; the PC
advance is part of it, and the step adds nothing. -/
def Obligations.StepExecutesDecodedInstruction : Prop :=
  ∀ (s : State) (i : Instr), s.run = .running → decode (fetch s) = .ok i → step s = exec i s

/-- R111 from memory: when the cells of an instruction's encoding stand at PC, an enabled step executes that instruction. -/
def Obligations.StepExecutesInstructionInMemory : Prop :=
  ∀ (s : State) (i : Instr), s.run = .running →
    (∀ (k : Nat) (c : Word), (encode i)[k]? = some c → s.mem.read ((s.pc + k : Nat) : Int) = some c) → step s = exec i s

/-- What an enabled step does when the instruction at PC does not decode: no word (the empty memory, D11), a bad opcode (D5), a
bad mode digit (D6), a missing operand cell (D10), the first of them in the order of D7; nothing but FAULT and RUN changes. -/
def Obligations.StepTakesDecodeFaults : Prop :=
  ∀ s : State, s.run = .running →
    ((s.mem.len : Int) ≤ s.pc → ∃ t, step s = .next t ∧ FaultTaken s t .outOfBoundsAccess 0 s.pc) ∧
    ∀ iw : Word, s.mem.read s.pc = some iw →
      ((∀ o : Opcode, opcodeField iw ≠ o.number) →
        ∃ t, step s = .next t ∧ FaultTaken s t .invalidOpcode (opcodeField iw) s.pc) ∧
      (∀ o : Opcode, opcodeField iw = o.number →
        (∀ k, k < o.arity → modeDigit k iw ≠ 0 → modeDigit k iw ≠ 1 → (∀ j, j < k → modeDigit j iw = 0 ∨ modeDigit j iw = 1) →
          ∃ t, step s = .next t ∧ FaultTaken s t .invalidParameterMode (modeDigit k iw) s.pc) ∧
        ((∀ k, k < o.arity → modeDigit k iw = 0 ∨ modeDigit k iw = 1) →
          ∀ k, k < o.arity → s.pc + 1 + k = s.mem.len →
            ∃ t, step s = .next t ∧ FaultTaken s t .outOfBoundsAccess 0 ((s.pc + 1 + k : Nat) : Int)))

/-- R116: a step is enabled exactly in Running, so nothing leaves Halted or Faulted and no element of state changes there. -/
def Obligations.StepEnabledExactlyWhenRunning : Prop :=
  ∀ s : State, (∃ t, step s = .next t) ↔ s.run = .running

/-- R112: after a successful execute, if PC + width stays below LEN, PC moves on by 4 for ADD and MUL and by 2 for IN and OUT,
whatever the modes, the operands and the cells written. -/
def Obligations.PcAdvancesByTheWidth : Prop :=
  ∀ (s t : State) (i : Instr), s.run = .running → exec i s = .next t → t.run ≠ .faulted → i ≠ .halt →
    s.pc + widthOf i < s.mem.len → t.pc = s.pc + widthOf i ∧ t.run = .running

/-- The defensive halt as the spec reads it (D15): if PC + width would reach LEN the run halts, PC keeps its value, and the
instruction's effect (its store, its pop, its append) is kept. -/
def Obligations.DefensiveHaltKeepsPcAndEffect : Prop :=
  ∀ (s t : State) (i : Instr), s.run = .running → exec i s = .next t → t.run ≠ .faulted → i ≠ .halt →
    s.mem.len ≤ s.pc + widthOf i →
    t.run = .halted ∧ t.pc = s.pc ∧
    (∀ src, i = .output src → ∃ v, SourceIs s src v ∧ t.out = s.out ++ [v]) ∧
    (∀ dest, i = .input dest → ∃ v, s.inq = v :: t.inq ∧ t.mem.read (destAddress dest) = some v) ∧
    (∀ lhs rhs dest, i = .add lhs rhs dest →
      ∃ a b, SourceIs s lhs a ∧ SourceIs s rhs b ∧ t.mem.read (destAddress dest) = some (a + b)) ∧
    (∀ lhs rhs dest, i = .mul lhs rhs dest →
      ∃ a b, SourceIs s lhs a ∧ SourceIs s rhs b ∧ t.mem.read (destAddress dest) = some (a * b))

/-- The only successors of the instruction at PC are the instruction at PC + width, Halted and Faulted (43_control.md section 3),
so PC grows strictly while the run goes on. That PC stays in Halted and Faulted is the spec's own choice (decisions D15 and D16,
assumption log 5). -/
def Obligations.OnlySuccessorsAreNextHaltedFaulted : Prop :=
  ∀ s t : State, step s = .next t →
    (t.run = .running ∧ s.pc < t.pc ∧ ∃ i, decode (fetch s) = .ok i ∧ t.pc = s.pc + widthOf i) ∨
    (t.run = .halted ∧ t.pc = s.pc) ∨ (t.run = .faulted ∧ t.pc = s.pc)

/-- A run ends Halted only by a HALT instruction or by the defensive halt (70_reset_and_hazards.md section 3). -/
def Obligations.HaltedOnlyByHaltOrDefensiveHalt : Prop :=
  ∀ s t : State, step s = .next t → t.run = .halted →
    ∃ i, decode (fetch s) = .ok i ∧ (i = .halt ∨ s.mem.len ≤ s.pc + widthOf i)

/-- How a host tells the two apart (D15): after a step that halted and did not overwrite its own word, the word at PC ends in
99 exactly if the instruction was HALT. -/
def Obligations.HaltWordTellsHaltFromDefensiveHalt : Prop :=
  ∀ (s t : State) (i : Instr), step s = .next t → t.run = .halted → decode (fetch s) = .ok i →
    t.mem.read s.pc = s.mem.read s.pc → (endedOnHaltWord t = true ↔ i = .halt)

/-! ### Faults -/

/-- Fault entry writes FAULT and RUN and nothing else (60_exceptions.md section 3); and every step that ends Faulted differs from
the state before it in FAULT and RUN only, which is the spec's own choice that faults are precise (decision D14, assumption log
5). -/
def Obligations.FaultEntryWritesFaultAndRun : Prop :=
  (∀ (r : FaultRecord) (s : State), takeFault r s = { s with fault := r, run := .faulted }) ∧
  ∀ s t : State, step s = .next t → t.run = .faulted → ∃ r, t = { s with fault := r, run := .faulted }

/-- Faults are precise (D14), and FAULT is written only at the transition to Faulted, with a kind that is not None (D18). -/
def Obligations.FaultsArePreciseAndRecordedOnce : Prop :=
  ∀ s t : State, step s = .next t →
    (t.run = .faulted → t.mem = s.mem ∧ t.pc = s.pc ∧ t.inq = s.inq ∧ t.out = s.out ∧ t.fault.kind ≠ .none) ∧
    (t.run ≠ .faulted → t.fault = s.fault)

/-- A run whose next word is non-negative and ends in 99 never faults (43_control.md section 1: HALT cannot fault once its word
has been fetched and decoded). That such words other than 99 (199, 1099) are HALT is the spec's own decision D8 (assumption log
6). -/
def Obligations.RunAtHaltWordIsSafe : Prop :=
  ∀ (s : State) (iw : Int), s.run = .running → s.mem.read s.pc = some iw → 0 ≤ iw → iw % 100 = 99 → SafeFrom s

/-! ### Whole-machine rules -/

/-- R54: no step, faulting or not, changes LEN; a write at or beyond LEN faults and extends nothing. -/
def Obligations.LengthNeverChanges : Prop :=
  (∀ s t : State, step s = .next t → t.mem.len = s.mem.len) ∧
  ∀ (s : State) (a : Int) (v : Word), (s.mem.len : Int) ≤ a → memWrite s a v = .error ⟨.outOfBoundsAccess, 0, a⟩

/-- Only ADD, MUL and IN write memory, and only the cell of their destination (10_state.md section 1, MEM's row). -/
def Obligations.OnlyDestinationCellsChange : Prop :=
  ∀ (s t : State) (a : Int), step s = .next t → t.mem.read a ≠ s.mem.read a →
    ∃ i, decode (fetch s) = .ok i ∧
      ((∃ lhs rhs dest, i = .add lhs rhs dest ∧ destAddress dest = a) ∨
       (∃ lhs rhs dest, i = .mul lhs rhs dest ∧ destAddress dest = a) ∨
       (∃ dest, i = .input dest ∧ destAddress dest = a))

/-- A store into a cell of the next instruction is what the next fetch sees, for each of the three instructions that store: the
sum of ADD, the product of MUL, the head of the queue for IN (20_memory.md section 5). -/
def Obligations.StoreIsSeenByNextFetch : Prop :=
  ∀ (s t : State) (lhs rhs dest : Param) (k : Nat), s.run = .running → t.run = .running → k < 4 →
    destAddress dest = ((t.pc + k : Nat) : Int) →
    (exec (.add lhs rhs dest) s = .next t →
      ∃ a b : Int, SourceIs s lhs a ∧ SourceIs s rhs b ∧ (fetch t)[k]? = some (a + b)) ∧
    (exec (.mul lhs rhs dest) s = .next t →
      ∃ a b : Int, SourceIs s lhs a ∧ SourceIs s rhs b ∧ (fetch t)[k]? = some (a * b)) ∧
    (exec (.input dest) s = .next t → ∃ v, s.inq.head? = some v ∧ (fetch t)[k]? = some v)

/-- R102: only IN takes from the queue, and it takes the head, which it stores; so along any run the queue is what is left of
the input after some values were taken from its front, one for each IN at most. -/
def Obligations.InputIsConsumedInOrder : Prop :=
  (∀ s t : State, step s = .next t →
    t.inq = s.inq ∨
    ∃ dest v, decode (fetch s) = .ok (.input dest) ∧ s.inq = v :: t.inq ∧ t.mem.read (destAddress dest) = some v) ∧
  (∀ (s t : State) (dest : Param), step s = .next t → decode (fetch s) = .ok (.input dest) → t.run ≠ .faulted →
    ∃ v, s.inq = v :: t.inq ∧ t.mem.read (destAddress dest) = some v) ∧
  ∀ (k : Nat) (s t : State), Sys2Proof.core.run k s = .next t → ∃ taken, s.inq = taken ++ t.inq ∧ taken.length ≤ k

/-- R103: only OUT adds to the log, and it adds the value of its source at the end; along any run nothing already in the log is
removed or rewritten. -/
def Obligations.OutputIsAppendOnly : Prop :=
  (∀ s t : State, step s = .next t →
    t.out = s.out ∨ ∃ src v, decode (fetch s) = .ok (.output src) ∧ SourceIs s src v ∧ t.out = s.out ++ [v]) ∧
  (∀ (s t : State) (src : Param), step s = .next t → decode (fetch s) = .ok (.output src) → t.run ≠ .faulted →
    ∃ v, SourceIs s src v ∧ t.out = s.out ++ [v]) ∧
  ∀ (k : Nat) (s t : State), Sys2Proof.core.run k s = .next t → ∃ emitted, t.out = s.out ++ emitted ∧ emitted.length ≤ k

/-- No instruction reads the output log (10_state.md section 6): with another log before a step, the step does the same and
appends the same. -/
def Obligations.OutputLogIsNeverRead : Prop :=
  ∀ (s t : State) (log : List Word), step s = .next t →
    ∃ emitted, t.out = s.out ++ emitted ∧ step { s with out := log } = .next { t with out := log ++ emitted }

/-- No instruction sees past the head of the queue (42_io.md section 2): input behind a queue that is not empty changes nothing
of a step but being still there after it. -/
def Obligations.InputBehindTheHeadIsNotSeen : Prop :=
  ∀ (s t : State) (more : List Word), s.inq ≠ [] → step s = .next t →
    step { s with inq := s.inq ++ more } = .next { t with inq := t.inq ++ more }

/-- Every step keeps the invariants of 10_state.md section 8 and R130's payloads, from every state that has them. -/
def Obligations.StepKeepsInvariants : Prop :=
  ∀ s t : State, s.Inv → step s = .next t → t.Inv

/-- Every launch gives a state with the invariants. -/
def Obligations.LaunchEstablishesInvariants : Prop :=
  ∀ (image inputs : List Word) (s : State), launch image inputs = some s → s.Inv

/-- The state after reset has the invariants. -/
def Obligations.ResetHasInvariants : Prop := State.reset.Inv

/-- 10_state.md section 8, all five points, for every run: the invariants hold of every state a launched run reaches, the queue
is a suffix of the launched inputs, and values taken and values emitted are together no more than the steps. -/
def Obligations.EveryRunKeepsInvariants : Prop :=
  ∀ (image inputs : List Word) (k : Nat) (s t : State), launch image inputs = some s → Sys2Proof.core.run k s = .next t →
    t.Inv ∧ ∃ taken, inputs = taken ++ t.inq ∧ t.out.length + taken.length ≤ k

/-- Every run ends (43_control.md section 4, R117): from a running state the CORE stops after at most ceil((LEN - PC) / 2)
steps, at least one; from a launch that is at most ceil(LEN / 2), and one step if LEN = 0. -/
def Obligations.EveryRunTerminates : Prop :=
  ∀ s : State, s.run = .running → s.pc < max s.mem.len 1 →
    ∃ (k : Nat) (t : State), 1 ≤ k ∧ k ≤ max 1 ((s.mem.len - s.pc + 1) / 2) ∧
      Sys2Proof.core.run k s = .next t ∧ t.run ≠ .running

/-- Agreement with the unbounded integers (41_arithmetic.md section 2, R95): a run of any length that has not ended in an
ArithmeticOverflow is, state for state, the run of the machine without the range check. -/
def Obligations.RunsAgreeWithUnboundedIntegers : Prop :=
  ∀ (k : Nat) (s t : State), Sys2Proof.core.run k s = .next t → t.fault.kind ≠ .arithmeticOverflow →
    unboundedCore.run k s = .next t

/-! ### Launch, reset and the host -/

/-- A launch (70_reset_and_hazards.md section 1; D18, D23): it is refused unless every value is a cell value and the image is
short enough; otherwise cell i is element i, PC is 0, RUN Running, FAULT (None, 0, 0), INQ the inputs and OUT empty. -/
def Obligations.LaunchLoadsImageAndInputs : Prop :=
  ∀ image inputs : List Word,
    (((∀ v : Int, v ∈ image ++ inputs → -2 ^ 63 ≤ v ∧ v ≤ 2 ^ 63 - 1) ∧ (image.length : Int) ≤ 2 ^ 63 - 4) →
      ∃ s, launch image inputs = some s ∧ s.mem.len = image.length ∧ (∀ i : Nat, s.mem.read i = image[i]?) ∧
        s.pc = 0 ∧ s.run = .running ∧ s.fault = ⟨.none, 0, 0⟩ ∧ s.inq = inputs ∧ s.out = []) ∧
    (¬ ((∀ v : Int, v ∈ image ++ inputs → -2 ^ 63 ≤ v ∧ v ≤ 2 ^ 63 - 1) ∧ (image.length : Int) ≤ 2 ^ 63 - 4) →
      launch image inputs = none)

/-- The state after reset is the launch of the empty image with no input (the model's choice, assumption log 2): PC = 0, RUN =
Running, FAULT = (None, 0, 0), OUT empty, as 10_state.md section 8 says of every launch. -/
def Obligations.ResetIsTheEmptyLaunch : Prop :=
  launch [] [] = some State.reset ∧ State.reset.pc = 0 ∧ State.reset.run = .running ∧
    State.reset.fault = ⟨.none, 0, 0⟩ ∧ State.reset.out = [] ∧ State.reset.inq = [] ∧ State.reset.mem.len = 0

/-- A new launch is possible exactly where the run has ended, and nothing of the old state survives it (D22). -/
def Obligations.RelaunchOnlyAfterTheEnd : Prop :=
  ∀ (s : State) (image inputs : List Word),
    (s.run = .running → relaunch s image inputs = none) ∧
    (s.run ≠ .running → relaunch s image inputs = launch image inputs)

/-- R119: a halted run returns its whole output log; a faulted run returns the fault record, whole, and no log; after either end
every cell, the log and the rest of the input can be read as they stand. -/
def Obligations.RunResultIsLogOrFault : Prop :=
  ∀ s : State,
    (s.run = .halted → result s = some (.output s.out)) ∧
    (s.run = .faulted → result s = some (.fault s.fault)) ∧
    (s.run ≠ .running → (∀ a, readBackCell s a = s.mem.read a) ∧ readBackOut s = some s.out ∧ readBackInq s = some s.inq)

/-- The numeric codes of RUN and of the fault kinds (the spec's decision D17): 0, 1, 2 and 0 to 5, no two alike. -/
def Obligations.StatusCodesAreDistinct : Prop :=
  (RunState.code .running = 0 ∧ RunState.code .halted = 1 ∧ RunState.code .faulted = 2) ∧
  (∀ r : RunState, r.code ≠ 3) ∧
  [FaultKind.none, .invalidOpcode, .invalidParameterMode, .outOfBoundsAccess, .inputExhausted, .arithmeticOverflow].map
    FaultKind.code = [0, 1, 2, 3, 4, 5]

/-- A word placed for the next step (the model's convention, assumption log 7) is what the next step runs, from any state. -/
def Obligations.PlacedWordRunsNext : Prop :=
  ∀ (s : State) (nbits w : Nat) (i : Instr), decodeTableWord nbits w = some i →
    step (s.withFetchWord nbits w) = exec i (s.withFetchWord nbits w)
end

