-- ==== Sys2Proof/Laws/Decode.lean ====
section
/-! SUPPORT. The laws of the decimal fields and of each part of the decoder. -/

namespace Sys2Proof

theorem opcodeOf_number (op : Opcode) : opcodeOf op.number = some op := by cases op <;> rfl

/-- R64, R70: the closed set. -/
theorem opcodeOf_eq_some {op : Int} {o : Opcode} : opcodeOf op = some o ↔ op = o.number := by
  constructor
  · intro h
    unfold opcodeOf at h
    split at h
    · cases h; assumption
    split at h
    · cases h; assumption
    split at h
    · cases h; assumption
    split at h
    · cases h; assumption
    split at h
    · cases h; assumption
    · cases h
  · rintro rfl; exact opcodeOf_number o

theorem opcodeOf_eq_none {op : Int} :
    opcodeOf op = none ↔ op ≠ 1 ∧ op ≠ 2 ∧ op ≠ 3 ∧ op ≠ 4 ∧ op ≠ 99 := by
  unfold opcodeOf; repeat' split
  all_goals simp_all

theorem decodeMode_digit (m : Mode) : decodeMode m.digit = .ok m := by cases m <;> rfl

theorem decodeMode_eq_ok {d : Int} {m : Mode} : decodeMode d = .ok m ↔ d = m.digit := by
  unfold decodeMode
  split
  · cases m <;> simp_all [Mode.digit]
  · split <;> cases m <;> simp_all [Mode.digit]

theorem decodeMode_eq_error {d : Int} {e : DecodeError} :
    decodeMode d = .error e ↔ d ≠ 0 ∧ d ≠ 1 ∧ e = .invalidMode d := by
  unfold decodeMode
  split
  · simp_all
  · split <;> simp_all [eq_comm]

/-- For a non-negative word the fields are the ordinary quotients and remainders (R9). -/
theorem opcodeField_of_nonneg {iw : Int} (h : 0 ≤ iw) : opcodeField iw = iw % 100 :=
  Int.tmod_eq_emod_of_nonneg h

theorem modeDigit_of_nonneg {iw : Int} (h : 0 ≤ iw) (i : Nat) :
    modeDigit i iw = iw / ((10 ^ (2 + i) : Nat) : Int) % 10 := by
  unfold modeDigit digit trem tdiv
  rw [Int.tdiv_eq_ediv_of_nonneg h, Int.tmod_eq_emod_of_nonneg (Int.ediv_nonneg h (by positivity))]

/-- R62: a negative word has an opcode field from -99 to 0. -/
theorem opcodeField_of_neg {iw : Int} (h : iw < 0) : -99 ≤ opcodeField iw ∧ opcodeField iw ≤ 0 := by
  unfold opcodeField trem
  have h1 : iw.tmod 100 = -((-iw) % 100) := by
    rw [← Int.tmod_eq_emod_of_nonneg (by omega : (0 : Int) ≤ -iw), Int.neg_tmod, neg_neg]
  omega

/-- R61: the fields of the word the encoder writes for format F3. -/
theorem wordF3_fields (op : Opcode) (m0 m1 m2 : Mode) :
    0 ≤ op.number + 100 * m0.digit + 1000 * m1.digit + 10000 * m2.digit ∧
    opcodeField (op.number + 100 * m0.digit + 1000 * m1.digit + 10000 * m2.digit) = op.number ∧
    modeDigit 0 (op.number + 100 * m0.digit + 1000 * m1.digit + 10000 * m2.digit) = m0.digit ∧
    modeDigit 1 (op.number + 100 * m0.digit + 1000 * m1.digit + 10000 * m2.digit) = m1.digit ∧
    modeDigit 2 (op.number + 100 * m0.digit + 1000 * m1.digit + 10000 * m2.digit) = m2.digit := by
  cases op <;> cases m0 <;> cases m1 <;> cases m2 <;> decide

/-- R61: the fields of the word the encoder writes for format F1. -/
theorem wordF1_fields (op : Opcode) (m0 : Mode) :
    0 ≤ op.number + 100 * m0.digit ∧ opcodeField (op.number + 100 * m0.digit) = op.number ∧
    modeDigit 0 (op.number + 100 * m0.digit) = m0.digit := by
  cases op <;> cases m0 <;> decide

/-- R70: decoding fails at the opcode exactly when the field is outside the closed set. -/
theorem decode_of_invalidOpcode {iw : Word} (rest : List Word) (h : opcodeOf (opcodeField iw) = none) :
    decode (iw :: rest) = .error (.invalidOpcode (opcodeField iw)) := by
  simp [decode, h]

end Sys2Proof
end

