-- ==== Sys2Proof/Laws/Memory.lean ====
section
/-! SUPPORT. The laws of memory: what a read gives after a write, and that every memory operation keeps the canonical form. -/

namespace Sys2Proof.Machine

/-! ### Reads after writes, on the list of cells -/

theorem lookup_eraseCell (l : List (Nat × Word)) (a b : Nat) :
    lookup (eraseCell l a) b = if b = a then unlisted else lookup l b := by
  induction l with
  | nil => simp [eraseCell, lookup]
  | cons c rest ih =>
    obtain ⟨k, x⟩ := c
    by_cases hk : k = a
    · subst hk
      rw [eraseCell, if_pos rfl, ih, lookup]
      by_cases hb : b = k
      · simp [hb]
      · simp [hb, Ne.symm hb]
    · simp only [eraseCell, if_neg hk, lookup, ih]
      by_cases hb : k = b
      · subst hb; simp [hk]
      · simp [hb]

theorem lookup_insertCell_other (l : List (Nat × Word)) {a b : Nat} (v : Word) (h : b ≠ a) :
    lookup (insertCell l a v) b = lookup l b := by
  induction l with
  | nil => simp [insertCell, lookup, h.symm]
  | cons c rest ih =>
    obtain ⟨k, x⟩ := c
    simp only [insertCell]
    split <;> simp [lookup, h.symm, ih]

theorem lookup_insertCell_same (l : List (Nat × Word)) (a : Nat) (v : Word) (h : ∀ c ∈ l, c.1 ≠ a) :
    lookup (insertCell l a v) a = v := by
  induction l with
  | nil => simp [insertCell, lookup]
  | cons c rest ih =>
    obtain ⟨k, x⟩ := c
    have hk : k ≠ a := h _ (List.mem_cons_self ..)
    simp only [insertCell]
    split
    · simp [lookup]
    · simp [lookup, hk, ih fun c hc => h c (List.mem_cons_of_mem _ hc)]

theorem mem_eraseCell {l : List (Nat × Word)} {a : Nat} {c : Nat × Word} :
    c ∈ eraseCell l a ↔ c ∈ l ∧ c.1 ≠ a := by
  induction l with
  | nil => simp [eraseCell]
  | cons d rest ih =>
    obtain ⟨k, x⟩ := d
    by_cases hk : k = a
    · simp only [eraseCell, if_pos hk, ih, List.mem_cons]
      constructor
      · rintro ⟨h, hne⟩; exact ⟨.inr h, hne⟩
      · rintro ⟨rfl | h, hne⟩
        · exact absurd hk hne
        · exact ⟨h, hne⟩
    · simp only [eraseCell, if_neg hk, List.mem_cons, ih]
      constructor
      · rintro (rfl | ⟨h, hne⟩)
        · exact ⟨.inl rfl, hk⟩
        · exact ⟨.inr h, hne⟩
      · rintro ⟨rfl | h, hne⟩
        · exact .inl rfl
        · exact .inr ⟨h, hne⟩

theorem lookup_storeCell (l : List (Nat × Word)) (a b : Nat) (v : Word) :
    lookup (storeCell l a v) b = if b = a then v else lookup l b := by
  unfold storeCell
  split
  · next h => rw [lookup_eraseCell]; simp [h]
  · by_cases hb : b = a
    · subst hb
      simp [lookup_insertCell_same _ _ _ fun c hc => (mem_eraseCell.1 hc).2]
    · simp [hb, lookup_insertCell_other _ _ hb, lookup_eraseCell]

/-! ### The canonical form -/

theorem risingFrom_mono {lo lo' : Nat} (h : lo' ≤ lo) {l : List (Nat × Word)} (hl : risingFrom lo l = true) :
    risingFrom lo' l = true := by
  cases l with
  | nil => rfl
  | cons c rest =>
    simp only [risingFrom, Bool.and_eq_true, decide_eq_true_eq] at hl ⊢
    exact ⟨⟨h.trans hl.1.1, hl.1.2⟩, hl.2⟩

theorem risingFrom_eraseCell {lo : Nat} (l : List (Nat × Word)) (a : Nat) (hl : risingFrom lo l = true) :
    risingFrom lo (eraseCell l a) = true := by
  induction l generalizing lo with
  | nil => rfl
  | cons c rest ih =>
    simp only [risingFrom, Bool.and_eq_true, decide_eq_true_eq] at hl
    simp only [eraseCell]
    split
    · exact ih (risingFrom_mono (by omega) hl.2)
    · simp only [risingFrom, Bool.and_eq_true, decide_eq_true_eq]
      exact ⟨hl.1, ih hl.2⟩

theorem risingFrom_insertCell {lo : Nat} (l : List (Nat × Word)) {a : Nat} {v : Word} (hlo : lo ≤ a) (hv : v ≠ unlisted)
    (ha : ∀ c ∈ l, c.1 ≠ a) (hl : risingFrom lo l = true) : risingFrom lo (insertCell l a v) = true := by
  induction l generalizing lo with
  | nil => simp [insertCell, risingFrom, hlo, hv]
  | cons c rest ih =>
    obtain ⟨k, x⟩ := c
    have hk : k ≠ a := ha _ (List.mem_cons_self ..)
    simp only [risingFrom, Bool.and_eq_true, decide_eq_true_eq] at hl
    simp only [insertCell]
    split
    · simp only [risingFrom, Bool.and_eq_true, decide_eq_true_eq]
      exact ⟨⟨hlo, hv⟩, ⟨by omega, hl.1.2⟩, hl.2⟩
    · simp only [risingFrom, Bool.and_eq_true, decide_eq_true_eq]
      exact ⟨hl.1, ih (by omega) (fun c hc => ha c (List.mem_cons_of_mem _ hc)) hl.2⟩

theorem risingFrom_storeCell {l : List (Nat × Word)} (a : Nat) (v : Word) (hl : risingFrom 0 l = true) :
    risingFrom 0 (storeCell l a v) = true := by
  unfold storeCell
  split
  · exact risingFrom_eraseCell l a hl
  · next hv =>
    exact risingFrom_insertCell _ (Nat.zero_le a) hv (fun c hc => (mem_eraseCell.1 hc).2) (risingFrom_eraseCell l a hl)

theorem mem_insertCell {l : List (Nat × Word)} {a : Nat} {v : Word} {c : Nat × Word} (h : c ∈ insertCell l a v) :
    c = (a, v) ∨ c ∈ l := by
  induction l with
  | nil => exact .inl (by simpa [insertCell] using h)
  | cons d rest ih =>
    simp only [insertCell] at h
    split at h
    · simpa using h
    · rcases List.mem_cons.1 h with rfl | h
      · exact .inr (List.mem_cons_self ..)
      · exact (ih h).imp_right (List.mem_cons_of_mem _)

theorem mem_storeCell {l : List (Nat × Word)} {a : Nat} {v : Word} {c : Nat × Word} (h : c ∈ storeCell l a v) :
    c = (a, v) ∨ c ∈ l := by
  unfold storeCell at h
  split at h
  · exact .inr (mem_eraseCell.1 h).1
  · exact (mem_insertCell h).imp_right fun h => (mem_eraseCell.1 h).1

theorem Memory.wf_iff (m : Memory) :
    m.wf = true ↔ risingFrom 0 m.cells = true ∧ ∀ c ∈ m.cells, c.1 < m.len := by
  simp [Memory.wf]

/-- Storing to a cell below the length keeps the canonical form, and so does growing the memory. -/
theorem Memory.wf_store {m : Memory} {a n : Nat} (v : Word) (hm : m.wf = true) (hn : m.len ≤ n) (ha : a < n) :
    Memory.wf ⟨n, storeCell m.cells a v⟩ = true := by
  rw [Memory.wf_iff] at hm ⊢
  refine ⟨risingFrom_storeCell a v hm.1, fun c hc => ?_⟩
  rcases mem_storeCell hc with rfl | hc
  · exact ha
  · exact lt_of_lt_of_le (hm.2 c hc) hn

/-! ### Reads and writes of memory -/

theorem Memory.valid_iff (m : Memory) (a : Int) : m.valid a = true ↔ 0 ≤ a ∧ a < m.len := by
  simp [Memory.valid]

theorem Memory.read_isSome (m : Memory) (a : Int) : (m.read a).isSome = m.valid a := by
  unfold Memory.read; split <;> simp_all

theorem Memory.read_eq_none (m : Memory) (a : Int) : m.read a = none ↔ m.valid a = false := by
  unfold Memory.read; split <;> simp_all

/-- A write succeeds exactly at a valid address; then the length stays and each cell reads as it should. -/
theorem Memory.write_eq_some {m m' : Memory} {a : Int} {v : Word} (h : m.write a v = some m') :
    m.valid a = true ∧ m'.len = m.len ∧ ∀ b, m'.read b = if b = a then some v else m.read b := by
  unfold Memory.write at h
  split at h
  · next ha =>
    cases h
    refine ⟨ha, rfl, fun b => ?_⟩
    have hab : (b.toNat = a.toNat ∧ 0 ≤ b) ↔ (b = a ∧ 0 ≤ b) := by
      have := (m.valid_iff a).1 ha
      omega
    simp only [Memory.read, lookup_storeCell, Memory.valid]
    by_cases hb : b = a
    · subst hb
      simp_all [Memory.valid]
    · by_cases hb0 : 0 ≤ b
      · have : b.toNat ≠ a.toNat := fun h => hb (hab.1 ⟨h, hb0⟩).1
        simp [hb, this]
      · simp [hb, hb0]
  · cases h

theorem Memory.write_isSome (m : Memory) (a : Int) (v : Word) : (m.write a v).isSome = m.valid a := by
  unfold Memory.write; split <;> simp_all

theorem Memory.write_eq_none (m : Memory) (a : Int) (v : Word) : m.write a v = none ↔ m.valid a = false := by
  unfold Memory.write; split <;> simp_all

theorem Memory.write_wf {m m' : Memory} {a : Int} {v : Word} (hm : m.wf = true) (h : m.write a v = some m') :
    m'.wf = true := by
  unfold Memory.write at h
  split at h
  · next ha =>
    cases h
    have := (m.valid_iff a).1 ha
    exact Memory.wf_store v hm le_rfl (by omega)
  · cases h

/-! ### Images -/

theorem lookup_entriesFrom (l : List Word) (lo a : Nat) :
    lookup (entriesFrom lo l) a = if lo ≤ a then (l[a - lo]?).getD unlisted else unlisted := by
  induction l generalizing lo with
  | nil => simp [entriesFrom, lookup]
  | cons v vs ih =>
    have key : lookup (entriesFrom lo (v :: vs)) a = if lo = a then v else lookup (entriesFrom (lo + 1) vs) a := by
      simp only [entriesFrom]
      split
      · next hv =>
        by_cases h : lo = a
        · subst h; simp [ih, hv]
        · simp [h]
      · rfl
    rw [key, ih]
    by_cases h : lo = a
    · subst h; simp
    · by_cases h2 : lo ≤ a
      · have h3 : lo + 1 ≤ a := by omega
        obtain ⟨d, rfl⟩ : ∃ d, a = lo + 1 + d := ⟨a - (lo + 1), by omega⟩
        have e1 : lo + 1 + d - lo = d + 1 := by omega
        simp [h, h2, h3, e1]
      · have h3 : ¬ lo + 1 ≤ a := by omega
        simp [h, h2, h3]

/-- R33, R75: cell i of an image's memory is element i. -/
theorem Memory.read_ofImage (image : List Word) (i : Nat) : (Memory.ofImage image).read i = image[i]? := by
  by_cases h : i < image.length
  · simp [Memory.read, Memory.valid, Memory.ofImage, lookup_entriesFrom, h]
  · simp [Memory.read, Memory.valid, Memory.ofImage, h]

theorem risingFrom_entriesFrom (l : List Word) (lo : Nat) : risingFrom lo (entriesFrom lo l) = true := by
  induction l generalizing lo with
  | nil => rfl
  | cons v vs ih =>
    simp only [entriesFrom]
    split
    · exact risingFrom_mono (Nat.le_succ lo) (ih (lo + 1))
    · next hv => simp [risingFrom, hv, ih]

theorem lt_of_mem_entriesFrom {l : List Word} {lo : Nat} {c : Nat × Word} (h : c ∈ entriesFrom lo l) :
    c.1 < lo + l.length := by
  induction l generalizing lo with
  | nil => simp [entriesFrom] at h
  | cons v vs ih =>
    simp only [entriesFrom] at h
    split at h
    · have := ih h; simp only [List.length_cons]; omega
    · rcases List.mem_cons.1 h with rfl | h
      · simp
      · have := ih h; simp only [List.length_cons]; omega

theorem Memory.wf_ofImage (image : List Word) : (Memory.ofImage image).wf = true := by
  rw [Memory.wf_iff]
  exact ⟨risingFrom_entriesFrom image 0, fun c hc => by simpa [Memory.ofImage] using lt_of_mem_entriesFrom hc⟩

theorem Memory.wf_placeCells (vs : List Word) (m : Memory) (a : Nat) (hm : m.wf = true) : (placeCells m a vs).wf = true := by
  induction vs generalizing m a with
  | nil => exact hm
  | cons v vs ih => exact ih _ _ (Memory.wf_store v hm (le_max_left ..) (lt_of_lt_of_le (Nat.lt_succ_self a) (le_max_right ..)))

/-! ### The fetch's view -/

/-- Cell k of the view from address a is the cell at a + k, for k below the number of cells asked for. -/
theorem cellsFrom_getElem? (m : Memory) (n a k : Nat) :
    (cellsFrom m n a)[k]? = if k < n then m.read ((a + k : Nat) : Int) else none := by
  induction n generalizing a k with
  | zero => simp [cellsFrom]
  | succ n ih =>
    simp only [cellsFrom]
    split
    · next v hv =>
      cases k with
      | zero => simp [hv]
      | succ k =>
        have e : a + 1 + k = a + (k + 1) := by omega
        simp [ih, e]
    · next hv =>
      have : m.read ((a + k : Nat) : Int) = none := by
        rw [Memory.read_eq_none, Bool.eq_false_iff, ne_eq, Memory.valid_iff] at hv ⊢
        omega
      simp only [List.getElem?_nil]
      split
      · exact this.symm
      · rfl

end Sys2Proof.Machine
end

