-- ==== Sys2Proof/Laws/State.lean ====
section
/-! SUPPORT. What each update of State leaves in each field, and the fields of the state after a fault and after an advance. -/

namespace Sys2Proof.Machine

@[simp] theorem State.setMem_mem (s : State) (m : Memory) : (s.setMem m).mem = m := rfl
@[simp] theorem State.setMem_pc (s : State) (m : Memory) : (s.setMem m).pc = s.pc := rfl
@[simp] theorem State.setMem_run (s : State) (m : Memory) : (s.setMem m).run = s.run := rfl
@[simp] theorem State.setMem_fault (s : State) (m : Memory) : (s.setMem m).fault = s.fault := rfl
@[simp] theorem State.setMem_inq (s : State) (m : Memory) : (s.setMem m).inq = s.inq := rfl
@[simp] theorem State.setMem_out (s : State) (m : Memory) : (s.setMem m).out = s.out := rfl

@[simp] theorem State.setPc_mem (s : State) (n : Nat) : (s.setPc n).mem = s.mem := rfl
@[simp] theorem State.setPc_pc (s : State) (n : Nat) : (s.setPc n).pc = n := rfl
@[simp] theorem State.setPc_run (s : State) (n : Nat) : (s.setPc n).run = s.run := rfl
@[simp] theorem State.setPc_fault (s : State) (n : Nat) : (s.setPc n).fault = s.fault := rfl
@[simp] theorem State.setPc_inq (s : State) (n : Nat) : (s.setPc n).inq = s.inq := rfl
@[simp] theorem State.setPc_out (s : State) (n : Nat) : (s.setPc n).out = s.out := rfl

@[simp] theorem State.setRun_mem (s : State) (r : RunState) : (s.setRun r).mem = s.mem := rfl
@[simp] theorem State.setRun_pc (s : State) (r : RunState) : (s.setRun r).pc = s.pc := rfl
@[simp] theorem State.setRun_run (s : State) (r : RunState) : (s.setRun r).run = r := rfl
@[simp] theorem State.setRun_fault (s : State) (r : RunState) : (s.setRun r).fault = s.fault := rfl
@[simp] theorem State.setRun_inq (s : State) (r : RunState) : (s.setRun r).inq = s.inq := rfl
@[simp] theorem State.setRun_out (s : State) (r : RunState) : (s.setRun r).out = s.out := rfl

@[simp] theorem State.setFault_mem (s : State) (r : FaultRecord) : (s.setFault r).mem = s.mem := rfl
@[simp] theorem State.setFault_pc (s : State) (r : FaultRecord) : (s.setFault r).pc = s.pc := rfl
@[simp] theorem State.setFault_run (s : State) (r : FaultRecord) : (s.setFault r).run = s.run := rfl
@[simp] theorem State.setFault_fault (s : State) (r : FaultRecord) : (s.setFault r).fault = r := rfl
@[simp] theorem State.setFault_inq (s : State) (r : FaultRecord) : (s.setFault r).inq = s.inq := rfl
@[simp] theorem State.setFault_out (s : State) (r : FaultRecord) : (s.setFault r).out = s.out := rfl

@[simp] theorem State.setInq_mem (s : State) (q : List Word) : (s.setInq q).mem = s.mem := rfl
@[simp] theorem State.setInq_pc (s : State) (q : List Word) : (s.setInq q).pc = s.pc := rfl
@[simp] theorem State.setInq_run (s : State) (q : List Word) : (s.setInq q).run = s.run := rfl
@[simp] theorem State.setInq_fault (s : State) (q : List Word) : (s.setInq q).fault = s.fault := rfl
@[simp] theorem State.setInq_inq (s : State) (q : List Word) : (s.setInq q).inq = q := rfl
@[simp] theorem State.setInq_out (s : State) (q : List Word) : (s.setInq q).out = s.out := rfl

@[simp] theorem State.setOut_mem (s : State) (q : List Word) : (s.setOut q).mem = s.mem := rfl
@[simp] theorem State.setOut_pc (s : State) (q : List Word) : (s.setOut q).pc = s.pc := rfl
@[simp] theorem State.setOut_run (s : State) (q : List Word) : (s.setOut q).run = s.run := rfl
@[simp] theorem State.setOut_fault (s : State) (q : List Word) : (s.setOut q).fault = s.fault := rfl
@[simp] theorem State.setOut_inq (s : State) (q : List Word) : (s.setOut q).inq = s.inq := rfl
@[simp] theorem State.setOut_out (s : State) (q : List Word) : (s.setOut q).out = q := rfl

@[simp] theorem takeFault_mem (r : FaultRecord) (s : State) : (takeFault r s).mem = s.mem := rfl
@[simp] theorem takeFault_pc (r : FaultRecord) (s : State) : (takeFault r s).pc = s.pc := rfl
@[simp] theorem takeFault_run (r : FaultRecord) (s : State) : (takeFault r s).run = .faulted := rfl
@[simp] theorem takeFault_fault (r : FaultRecord) (s : State) : (takeFault r s).fault = r := rfl
@[simp] theorem takeFault_inq (r : FaultRecord) (s : State) : (takeFault r s).inq = s.inq := rfl
@[simp] theorem takeFault_out (r : FaultRecord) (s : State) : (takeFault r s).out = s.out := rfl

@[simp] theorem appendOutput_mem (v : Word) (s : State) : (appendOutput v s).mem = s.mem := rfl
@[simp] theorem appendOutput_pc (v : Word) (s : State) : (appendOutput v s).pc = s.pc := rfl
@[simp] theorem appendOutput_run (v : Word) (s : State) : (appendOutput v s).run = s.run := rfl
@[simp] theorem appendOutput_fault (v : Word) (s : State) : (appendOutput v s).fault = s.fault := rfl
@[simp] theorem appendOutput_inq (v : Word) (s : State) : (appendOutput v s).inq = s.inq := rfl
@[simp] theorem appendOutput_out (v : Word) (s : State) : (appendOutput v s).out = s.out ++ [v] := rfl

@[simp] theorem advance_mem (w : Nat) (s : State) : (advance w s).mem = s.mem := by unfold advance; split <;> rfl
@[simp] theorem advance_fault (w : Nat) (s : State) : (advance w s).fault = s.fault := by unfold advance; split <;> rfl
@[simp] theorem advance_inq (w : Nat) (s : State) : (advance w s).inq = s.inq := by unfold advance; split <;> rfl
@[simp] theorem advance_out (w : Nat) (s : State) : (advance w s).out = s.out := by unfold advance; split <;> rfl

/-- R112, R113: PC after the end of a successful execute. -/
theorem advance_pc (w : Nat) (s : State) : (advance w s).pc = if s.mem.len ≤ s.pc + w then s.pc else s.pc + w := by
  unfold advance; split <;> rfl

/-- R112, R113: RUN after the end of a successful execute. -/
theorem advance_run (w : Nat) (s : State) : (advance w s).run = if s.mem.len ≤ s.pc + w then .halted else s.run := by
  unfold advance; split <;> rfl

end Sys2Proof.Machine
end

