-- ==== Sys2Proof/Laws/Ops.lean ====
section
/-! SUPPORT. What each shared operation, each meaning and the step can do, said once. -/

namespace Sys2Proof.Machine

/-! ### The memory controller and the operands -/

theorem memRead_eq_ok {s : State} {a : Int} {v : Word} : memRead s a = .ok v ↔ s.mem.read a = some v := by
  unfold memRead; cases s.mem.read a <;> simp

theorem memRead_eq_error {s : State} {a : Int} {r : FaultRecord} :
    memRead s a = .error r ↔ s.mem.read a = none ∧ r = .outOfBounds a := by
  unfold memRead; cases s.mem.read a <;> simp [eq_comm]

theorem memWrite_eq_ok {s t : State} {a : Int} {v : Word} :
    memWrite s a v = .ok t ↔ ∃ m, s.mem.write a v = some m ∧ t = s.setMem m := by
  unfold memWrite; cases s.mem.write a v <;> simp [eq_comm]

theorem memWrite_eq_error {s : State} {a : Int} {v : Word} {r : FaultRecord} :
    memWrite s a v = .error r ↔ s.mem.valid a = false ∧ r = .outOfBounds a := by
  rw [← Memory.write_eq_none (v := v)]
  unfold memWrite; cases s.mem.write a v <;> simp [eq_comm]

theorem resolve_position (s : State) (r : Word) : resolve s ⟨.position, r⟩ = memRead s r := rfl

theorem resolve_immediate (s : State) (r : Word) : resolve s ⟨.immediate, r⟩ = .ok r := rfl

/-- A resolved value is the raw value itself or the content of the cell it names. -/
theorem resolve_eq_ok {s : State} {p : Param} {v : Word} :
    resolve s p = .ok v ↔ (p.mode = .immediate ∧ v = p.raw) ∨ (p.mode = .position ∧ s.mem.read p.raw = some v) := by
  obtain ⟨m, r⟩ := p
  cases m with
  | position => rw [resolve_position, memRead_eq_ok]; simp
  | immediate => rw [resolve_immediate]; simp [eq_comm]

theorem resolve_eq_error {s : State} {p : Param} {r : FaultRecord} :
    resolve s p = .error r ↔ p.mode = .position ∧ s.mem.read p.raw = none ∧ r = .outOfBounds p.raw := by
  obtain ⟨m, x⟩ := p
  cases m <;> simp [resolve, memRead_eq_error]

theorem narrow_eq_some {w : Nat} {x : Int} {v : Word} : narrow w x = some v ↔ isCellValue w x = true ∧ v = x := by
  unfold narrow; by_cases h : isCellValue w x = true <;> simp [h, eq_comm]

theorem narrow_eq_none {w : Nat} {x : Int} : narrow w x = none ↔ isCellValue w x = false := by
  unfold narrow; split <;> simp_all

/-! ### The effects of the instructions -/

theorem arithmetic_eq_ok {check : Int → Option Word} {op : Word → Word → Int} {lhs rhs dest : Param} {s t : State} :
    arithmetic check op lhs rhs dest s = .ok t ↔
      ∃ a b v m, resolve s lhs = .ok a ∧ resolve s rhs = .ok b ∧ check (op a b) = some v ∧
        s.mem.write dest.raw v = some m ∧ t = s.setMem m := by
  unfold arithmetic
  cases ha : resolve s lhs with
  | error r => simp [bind, Except.bind]
  | ok a =>
    cases hb : resolve s rhs with
    | error r => simp [bind, Except.bind]
    | ok b =>
      cases hv : check (op a b) with
      | none => simp [bind, Except.bind, hv]
      | some v => simp [bind, Except.bind, hv, writeDest, destAddress, memWrite_eq_ok]

/-- The four faults of ADD and MUL in the order they are judged (R90, R91, R136). -/
theorem arithmetic_eq_error {check : Int → Option Word} {op : Word → Word → Int} {lhs rhs dest : Param} {s : State}
    {r : FaultRecord} :
    arithmetic check op lhs rhs dest s = .error r ↔
      resolve s lhs = .error r ∨
      (∃ a, resolve s lhs = .ok a ∧ resolve s rhs = .error r) ∨
      (∃ a b, resolve s lhs = .ok a ∧ resolve s rhs = .ok b ∧ check (op a b) = none ∧ r = .arithmeticOverflow s.pc) ∨
      (∃ a b v, resolve s lhs = .ok a ∧ resolve s rhs = .ok b ∧ check (op a b) = some v ∧ s.mem.valid dest.raw = false ∧
        r = .outOfBounds dest.raw) := by
  unfold arithmetic
  cases ha : resolve s lhs with
  | error r => simp [bind, Except.bind]
  | ok a =>
    cases hb : resolve s rhs with
    | error r => simp [bind, Except.bind]
    | ok b =>
      cases hv : check (op a b) with
      | none => simp [bind, Except.bind, hv]; exact eq_comm
      | some v => simp [bind, Except.bind, hv, writeDest, destAddress, memWrite_eq_error]

theorem inputEffect_eq_ok {dest : Param} {s t : State} :
    inputEffect dest s = .ok t ↔
      ∃ v rest m, s.inq = v :: rest ∧ s.mem.write dest.raw v = some m ∧ t = (s.setInq rest).setMem m := by
  unfold inputEffect popInput
  cases hq : s.inq with
  | nil => simp
  | cons v rest => simp [writeDest, destAddress, memWrite_eq_ok]

theorem inputEffect_eq_error {dest : Param} {s : State} {r : FaultRecord} :
    inputEffect dest s = .error r ↔
      (s.inq = [] ∧ r = .inputExhausted) ∨
      (s.inq ≠ [] ∧ s.mem.valid dest.raw = false ∧ r = .outOfBounds dest.raw) := by
  unfold inputEffect popInput
  cases hq : s.inq with
  | nil => simp; exact eq_comm
  | cons v rest => simp [writeDest, destAddress, memWrite_eq_error]

theorem outputEffect_eq_ok {src : Param} {s t : State} :
    outputEffect src s = .ok t ↔ ∃ v, resolve s src = .ok v ∧ t = appendOutput v s := by
  unfold outputEffect
  cases h : resolve s src <;> simp [bind, Except.bind, pure, Except.pure, eq_comm]

theorem outputEffect_eq_error {src : Param} {s : State} {r : FaultRecord} :
    outputEffect src s = .error r ↔ resolve s src = .error r := by
  unfold outputEffect
  cases h : resolve s src <;> simp [bind, Except.bind, pure, Except.pure]

/-! ### The instructions and the step -/

/-- What a successful effect of an instruction other than HALT is: one cell written by ADD or MUL, one cell written and one
input value gone for IN, one output value more for OUT. -/
inductive Effect (s : State) : Instr → State → Prop where
  | add {lhs rhs dest : Param} {a b : Word} {m : Memory} (ha : resolve s lhs = .ok a) (hb : resolve s rhs = .ok b)
      (hv : isCellValue Config.W (a + b) = true) (hm : s.mem.write dest.raw (a + b) = some m) :
      Effect s (.add lhs rhs dest) (s.setMem m)
  | mul {lhs rhs dest : Param} {a b : Word} {m : Memory} (ha : resolve s lhs = .ok a) (hb : resolve s rhs = .ok b)
      (hv : isCellValue Config.W (a * b) = true) (hm : s.mem.write dest.raw (a * b) = some m) :
      Effect s (.mul lhs rhs dest) (s.setMem m)
  | input {dest : Param} {v : Word} {rest : List Word} {m : Memory} (hq : s.inq = v :: rest)
      (hm : s.mem.write dest.raw v = some m) : Effect s (.input dest) ((s.setInq rest).setMem m)
  | output {src : Param} {v : Word} (hv : resolve s src = .ok v) : Effect s (.output src) (appendOutput v s)

/-- The faults an instruction's execution can raise in s, after it has been decoded. -/
inductive Raises (s : State) : Instr → FaultRecord → Prop where
  | add {lhs rhs dest : Param} {r : FaultRecord} (h : arithmetic (narrow Config.W) exactSum lhs rhs dest s = .error r) :
      Raises s (.add lhs rhs dest) r
  | mul {lhs rhs dest : Param} {r : FaultRecord} (h : arithmetic (narrow Config.W) exactProduct lhs rhs dest s = .error r) :
      Raises s (.mul lhs rhs dest) r
  | input {dest : Param} {r : FaultRecord} (h : inputEffect dest s = .error r) : Raises s (.input dest) r
  | output {src : Param} {r : FaultRecord} (h : resolve s src = .error r) : Raises s (.output src) r

/-- Everything `exec` can answer: HALT's halt, a fault taken in the state it started from, or an effect and the advance. -/
theorem exec_cases (i : Instr) (s : State) :
    (i = .halt ∧ exec i s = .next (s.setRun .halted)) ∨
    (∃ r, Raises s i r ∧ exec i s = .next (takeFault r s)) ∨
    (∃ u, Effect s i u ∧ exec i s = .next (advance i.width u)) := by
  cases i with
  | halt => exact .inl ⟨rfl, rfl⟩
  | add lhs rhs dest =>
    refine .inr ?_
    cases h : arithmetic (narrow Config.W) exactSum lhs rhs dest s with
    | error r => exact .inl ⟨r, .add h, by simp [exec, execAdd, execAddAt, h, finish]⟩
    | ok u =>
      obtain ⟨a, b, v, m, ha, hb, hv, hm, rfl⟩ := arithmetic_eq_ok.1 h
      obtain ⟨hc, rfl⟩ := narrow_eq_some.1 hv
      exact .inr ⟨_, .add ha hb hc hm, by simp [exec, execAdd, execAddAt, h, finish, Instr.width, Instr.opcode]⟩
  | mul lhs rhs dest =>
    refine .inr ?_
    cases h : arithmetic (narrow Config.W) exactProduct lhs rhs dest s with
    | error r => exact .inl ⟨r, .mul h, by simp [exec, execMul, execMulAt, h, finish]⟩
    | ok u =>
      obtain ⟨a, b, v, m, ha, hb, hv, hm, rfl⟩ := arithmetic_eq_ok.1 h
      obtain ⟨hc, rfl⟩ := narrow_eq_some.1 hv
      exact .inr ⟨_, .mul ha hb hc hm, by simp [exec, execMul, execMulAt, h, finish, Instr.width, Instr.opcode]⟩
  | input dest =>
    refine .inr ?_
    cases h : inputEffect dest s with
    | error r => exact .inl ⟨r, .input h, by simp [exec, execInput, h, finish]⟩
    | ok u =>
      obtain ⟨v, rest, m, hq, hm, rfl⟩ := inputEffect_eq_ok.1 h
      exact .inr ⟨_, .input hq hm, by simp [exec, execInput, h, finish, Instr.width, Instr.opcode]⟩
  | output src =>
    refine .inr ?_
    cases h : outputEffect src s with
    | error r => exact .inl ⟨r, .output (outputEffect_eq_error.1 h), by simp [exec, execOutput, h, finish]⟩
    | ok u =>
      obtain ⟨v, hv, rfl⟩ := outputEffect_eq_ok.1 h
      exact .inr ⟨_, .output hv, by simp [exec, execOutput, h, finish, Instr.width, Instr.opcode]⟩

/-- An execution that raises takes exactly that fault. -/
theorem Raises.exec_eq {s : State} {i : Instr} {r : FaultRecord} (h : Raises s i r) : exec i s = .next (takeFault r s) := by
  cases h with
  | add h => simp [exec, execAdd, execAddAt, h, finish]
  | mul h => simp [exec, execMul, execMulAt, h, finish]
  | input h => simp [exec, execInput, h, finish]
  | output h => simp [exec, execOutput, outputEffect_eq_error.2 h, finish]

/-- An effect is committed and the sequencer moves on. -/
theorem Effect.exec_eq {s u : State} {i : Instr} (h : Effect s i u) : exec i s = .next (advance i.width u) := by
  cases h with
  | add ha hb hv hm =>
    have := (arithmetic_eq_ok (op := exactSum)).2 ⟨_, _, _, _, ha, hb, narrow_eq_some.2 ⟨hv, rfl⟩, hm, rfl⟩
    simp [exec, execAdd, execAddAt, this, finish, Instr.width, Instr.opcode]
  | mul ha hb hv hm =>
    have := (arithmetic_eq_ok (op := exactProduct)).2 ⟨_, _, _, _, ha, hb, narrow_eq_some.2 ⟨hv, rfl⟩, hm, rfl⟩
    simp [exec, execMul, execMulAt, this, finish, Instr.width, Instr.opcode]
  | input hq hm =>
    have := inputEffect_eq_ok.2 ⟨_, _, _, hq, hm, rfl⟩
    simp [exec, execInput, this, finish, Instr.width, Instr.opcode]
  | output hv =>
    have := outputEffect_eq_ok.2 ⟨_, hv, rfl⟩
    simp [exec, execOutput, this, finish, Instr.width, Instr.opcode]

/-- Everything `step` can answer with a next state: it runs only in Running; then a decode error's fault is taken, or the
decoded instruction is executed. -/
theorem step_eq_next {s t : State} : step s = .next t ↔
    s.run = .running ∧
      ((∃ e, decode (fetch s) = .error e ∧ t = takeFault (decodeFault s.pc e) s) ∨
       (∃ i, decode (fetch s) = .ok i ∧ exec i s = .next t)) := by
  unfold step
  cases hr : s.run with
  | running => cases hd : decode (fetch s) <;> simp [eq_comm]
  | halted => simp
  | faulted => simp

/-- A step that is enabled always has a next state. -/
theorem step_of_running {s : State} (h : s.run = .running) : ∃ t, step s = .next t := by
  cases hd : decode (fetch s) with
  | error e => exact ⟨_, step_eq_next.2 ⟨h, .inl ⟨e, hd, rfl⟩⟩⟩
  | ok i =>
    obtain ⟨_, he⟩ | ⟨r, _, he⟩ | ⟨u, _, he⟩ := exec_cases i s <;>
      exact ⟨_, step_eq_next.2 ⟨h, .inr ⟨i, hd, he⟩⟩⟩

end Sys2Proof.Machine
end

