-- ==== Sys2Proof/Laws/PerInstr.lean ====
section
/-! SUPPORT. Statements about every instruction as syntax, one lemma for each constructor. -/

namespace Sys2Proof.Laws

/-- R60, R63: an instruction's cells are its width. -/
def EncodedWidth.Statement (i : Instr) : Prop := (encode i).length = i.width

theorem EncodedWidth.add (lhs rhs dest : Param) : EncodedWidth.Statement (.add lhs rhs dest) := rfl
theorem EncodedWidth.mul (lhs rhs dest : Param) : EncodedWidth.Statement (.mul lhs rhs dest) := rfl
theorem EncodedWidth.input (dest : Param) : EncodedWidth.Statement (.input dest) := rfl
theorem EncodedWidth.output (src : Param) : EncodedWidth.Statement (.output src) := rfl
theorem EncodedWidth.halt : EncodedWidth.Statement .halt := rfl

/-- R61, R64: the first cell of an instruction is a non-negative word whose opcode field is the instruction's number. -/
def EncodedOpcode.Statement (i : Instr) : Prop :=
  ∃ iw rest, encode i = iw :: rest ∧ 0 ≤ iw ∧ opcodeField iw = i.opcode.number

theorem EncodedOpcode.add (lhs rhs dest : Param) : EncodedOpcode.Statement (.add lhs rhs dest) :=
  have h := wordF3_fields .add lhs.mode rhs.mode dest.mode
  ⟨_, _, rfl, h.1, h.2.1⟩
theorem EncodedOpcode.mul (lhs rhs dest : Param) : EncodedOpcode.Statement (.mul lhs rhs dest) :=
  have h := wordF3_fields .mul lhs.mode rhs.mode dest.mode
  ⟨_, _, rfl, h.1, h.2.1⟩
theorem EncodedOpcode.input (dest : Param) : EncodedOpcode.Statement (.input dest) :=
  have h := wordF1_fields .input dest.mode
  ⟨_, _, rfl, h.1, h.2.1⟩
theorem EncodedOpcode.output (src : Param) : EncodedOpcode.Statement (.output src) :=
  have h := wordF1_fields .output src.mode
  ⟨_, _, rfl, h.1, h.2.1⟩
theorem EncodedOpcode.halt : EncodedOpcode.Statement .halt := ⟨_, _, rfl, by decide, by decide⟩

end Sys2Proof.Laws
end

