-- ==== Sys2Proof/Laws/Run.lean ====
section
/-! SUPPORT. Runs of the machine, one step at a time, and the induction over a run, packaged once. -/

namespace Sys2Proof.Machine

theorem run_zero (s t : State) : Sys2Proof.core.run 0 s = .next t ↔ s = t := by
  constructor
  · intro h; exact Host.Outcome.next.inj h
  · rintro rfl; rfl

/-- One step at the front of a run, for any machine. -/
theorem run_succ_of (M : Host.Core) (k : Nat) (s t : M.State) :
    M.run (k + 1) s = .next t ↔ ∃ u, M.step s = .next u ∧ M.run k u = .next t := by
  rw [Host.Core.run]
  cases M.step s <;> simp

theorem run_succ (k : Nat) (s t : State) :
    Sys2Proof.core.run (k + 1) s = .next t ↔ ∃ u, step s = .next u ∧ Sys2Proof.core.run k u = .next t :=
  run_succ_of Sys2Proof.core k s t

/-- What holds of the empty run and is carried over one more step at the front holds of every run. -/
theorem run_induction {P : Nat → State → State → Prop} (zero : ∀ s, P 0 s s)
    (succ : ∀ k s u t, step s = .next u → P k u t → P (k + 1) s t) (k : Nat) (s t : State)
    (h : Sys2Proof.core.run k s = .next t) : P k s t := by
  induction k generalizing s with
  | zero => rw [run_zero] at h; subst h; exact zero s
  | succ k ih =>
    obtain ⟨u, hu, hk⟩ := (run_succ k s t).1 h
    exact succ k s u t hu (ih u hk)

end Sys2Proof.Machine
end

