-- ==== Sys2Proof/Tests/Slice0.lean ====
section
/-! SUPPORT. The model's own tests. Expected results are those of spec/95_test_vectors.md or of the rules named; the witnesses at
the end meet the hypotheses of the statements. -/

open Sys2Proof Sys2Proof.Machine Sys2Proof.Claims

namespace Sys2Proof.Tests

/-- The launch of an image and inputs that meet R164. -/
def launched (image inputs : List Word) : State := (launch image inputs).getD State.reset

/-- The next state, if there is one. -/
def nextOf : Host.Outcome State Fault Refusal → Option State
  | .next s => some s
  | .fault _ => none
  | .refused _ => none

/-- The memory as a list, cell by cell. -/
def cellsOf (s : State) : List (Option Word) := (List.range s.mem.len).map fun a => s.mem.read a

/-- What a test vector gives: RUN, FAULT, PC, MEM, OUT, INQ. -/
structure Seen where
  run   : RunState
  fault : FaultRecord
  pc    : Nat
  mem   : List (Option Word)
  out   : List Word
  inq   : List Word
  deriving DecidableEq, Repr

def seen (s : State) : Seen := ⟨s.run, s.fault, s.pc, cellsOf s, s.out, s.inq⟩

/-- What one step from a launch shows. -/
def oneStep (image inputs : List Word) := (nextOf (step (launched image inputs))).map seen

/-! ### Well-formedness: R65, a raw value beyond 64 bits fits in no cell -/

theorem test_wf_add_lhs : (Instr.add ⟨.immediate, 9223372036854775808⟩ ⟨.position, 0⟩ ⟨.position, 0⟩).wf = false := by decide
theorem test_wf_add_rhs : (Instr.add ⟨.position, 0⟩ ⟨.immediate, -9223372036854775809⟩ ⟨.position, 0⟩).wf = false := by decide
theorem test_wf_add_dest : (Instr.add ⟨.position, 0⟩ ⟨.position, 0⟩ ⟨.position, 9223372036854775808⟩).wf = false := by decide
theorem test_wf_mul_lhs : (Instr.mul ⟨.immediate, 9223372036854775808⟩ ⟨.position, 0⟩ ⟨.position, 0⟩).wf = false := by decide
theorem test_wf_mul_rhs : (Instr.mul ⟨.position, 0⟩ ⟨.immediate, -9223372036854775809⟩ ⟨.position, 0⟩).wf = false := by decide
theorem test_wf_mul_dest : (Instr.mul ⟨.position, 0⟩ ⟨.position, 0⟩ ⟨.position, 9223372036854775808⟩).wf = false := by decide
theorem test_wf_input_dest : (Instr.input ⟨.position, 9223372036854775808⟩).wf = false := by decide
theorem test_wf_output_src : (Instr.output ⟨.immediate, -9223372036854775809⟩).wf = false := by decide
theorem test_wf_limits : (Instr.add ⟨.immediate, 9223372036854775807⟩ ⟨.immediate, -9223372036854775808⟩ ⟨.position, 0⟩).wf = true ∧
    Instr.halt.wf = true := by decide

/-! ### Decoding: words written out from R61, R64, R66 to R70, digits right to left -/

theorem test_decode_add : decode [1001, 5, 6, 7] = .ok (.add ⟨.position, 5⟩ ⟨.immediate, 6⟩ ⟨.position, 7⟩) := by decide
theorem test_decode_mul : decode [1002, 4, 3, 4, 33] = .ok (.mul ⟨.position, 4⟩ ⟨.immediate, 3⟩ ⟨.position, 4⟩) := by decide
theorem test_decode_input : decode [3, 17] = .ok (.input ⟨.position, 17⟩) := by decide
theorem test_decode_output : decode [104, -7, 99] = .ok (.output ⟨.immediate, -7⟩) := by decide
theorem test_decode_halt : decode [99] = .ok .halt := by decide
theorem test_decode_destination_digit : decode [11101, 5, 6, 0] = .ok (.add ⟨.immediate, 5⟩ ⟨.immediate, 6⟩ ⟨.immediate, 0⟩) ∧
    decode [103, 0] = .ok (.input ⟨.immediate, 0⟩) := by decide
theorem test_decode_high_digits : decode [100001, 0, 0, 0] = decode [1, 0, 0, 0] ∧ decode [1003, 0] = decode [3, 0] ∧
    decode [199] = .ok .halt ∧ decode [1099] = .ok .halt := by decide
theorem test_decode_bad_opcodes : decode [0] = .error (.invalidOpcode 0) ∧ decode [100] = .error (.invalidOpcode 0) ∧
    decode [1005, 0, 0, 0] = .error (.invalidOpcode 5) ∧ decode [98] = .error (.invalidOpcode 98) ∧
    decode [-1] = .error (.invalidOpcode (-1)) ∧ decode [-101] = .error (.invalidOpcode (-1)) ∧
    decode [-99] = .error (.invalidOpcode (-99)) ∧ decode [205, 0, 0, 0] = .error (.invalidOpcode 5) := by decide
theorem test_decode_bad_modes : decode [201, 0, 0] = .error (.invalidMode 2) ∧ decode [2001, 0, 0, 0] = .error (.invalidMode 2) ∧
    decode [20001, 0, 0, 0] = .error (.invalidMode 2) ∧ decode [3201, 0, 0, 0] = .error (.invalidMode 2) ∧
    decode [901, 0, 0, 0] = .error (.invalidMode 9) ∧ decode [203, 0] = .error (.invalidMode 2) := by decide
theorem test_decode_missing_cells : decode [] = .error (.missingCell 0) ∧ decode [1] = .error (.missingCell 1) ∧
    decode [4] = .error (.missingCell 1) ∧ decode [1, 0, 0] = .error (.missingCell 3) := by decide
theorem test_encode_words : encode (.mul ⟨.position, 4⟩ ⟨.immediate, 3⟩ ⟨.position, 4⟩) = [1002, 4, 3, 4] ∧
    encode (.add ⟨.immediate, 100⟩ ⟨.immediate, -1⟩ ⟨.position, 4⟩) = [1101, 100, -1, 4] ∧ encode (.input ⟨.position, 0⟩) = [3, 0] ∧
    encode (.output ⟨.immediate, 7⟩) = [104, 7] ∧ encode .halt = [99] := by decide
/-- Program P1 of 95_test_vectors.md section 3. -/
theorem test_assemble : assemble [.input 17, .input 18, .add ⟨.position, 17⟩ ⟨.position, 18⟩ 19, .output ⟨.position, 19⟩,
    .mul ⟨.position, 17⟩ ⟨.position, 18⟩ 19, .output ⟨.position, 19⟩, .halt, .data [0, 0, 0]] =
    [3, 17, 3, 18, 1, 17, 18, 19, 4, 19, 2, 17, 18, 19, 4, 19, 99, 0, 0, 0] := by decide
theorem test_table_words : decodeTableWord 8 4 = some (.output ⟨.position, 0⟩) ∧ decodeTableWord 8 99 = some .halt ∧
    decodeTableWord 16 1101 = some (.add ⟨.immediate, 0⟩ ⟨.immediate, 0⟩ ⟨.position, 0⟩) ∧
    decodeTableWord 128 (104 + 2 ^ 64 * (2 ^ 64 - 7)) = some (.output ⟨.immediate, -7⟩) ∧ decodeTableWord 8 5 = none := by decide

/-! ### One step of each instruction (95_test_vectors.md) -/

theorem test_add_same_cell : oneStep [1, 0, 0, 0, 99] [] = some ⟨.running, .clear, 4, [2, 0, 0, 0, 99].map some, [], []⟩ := by decide
theorem test_add_overflow_before_destination : oneStep [1101, 9223372036854775807, 1, 9, 99] [] =
    some ⟨.faulted, ⟨.arithmeticOverflow, 0, 0⟩, 0, [1101, 9223372036854775807, 1, 9, 99].map some, [], []⟩ := by decide
theorem test_mul_modes : oneStep [1002, 4, 3, 4, 33] [] = some ⟨.running, .clear, 4, [1002, 4, 3, 4, 99].map some, [], []⟩ := by decide
theorem test_mul_reaches_int_min : oneStep [1102, -4294967296, 2147483648, 0, 99] [] =
    some ⟨.running, .clear, 4, [-9223372036854775808, -4294967296, 2147483648, 0, 99].map some, [], []⟩ := by decide
theorem test_input_stores_head : oneStep [3, 1, 99] [7, 8] = some ⟨.running, .clear, 2, [3, 7, 99].map some, [], [8]⟩ := by decide
theorem test_input_bad_destination_keeps_head : oneStep [3, 5, 99] [7] =
    some ⟨.faulted, ⟨.outOfBoundsAccess, 0, 5⟩, 0, [3, 5, 99].map some, [], [7]⟩ := by decide
theorem test_output_position : oneStep [4, 3, 99, 42] [] = some ⟨.running, .clear, 2, [4, 3, 99, 42].map some, [42], []⟩ := by decide
theorem test_output_immediate_is_no_address : oneStep [104, 1000, 99] [] =
    some ⟨.running, .clear, 2, [104, 1000, 99].map some, [1000], []⟩ := by decide
theorem test_halt_keeps_pc : oneStep [99, 1, 0, 0, 0] [5] = some ⟨.halted, .clear, 0, [99, 1, 0, 0, 0].map some, [], [5]⟩ := by decide
theorem test_defensive_halt : oneStep [1, 0, 0, 0] [] = some ⟨.halted, .clear, 0, [2, 0, 0, 0].map some, [], []⟩ := by decide
theorem test_no_defensive_halt_one_below : oneStep [4, 0, 0] [] = some ⟨.running, .clear, 2, [4, 0, 0].map some, [4], []⟩ := by decide

/-! ### Faults of a step (R136) -/

theorem test_empty_memory : oneStep [] [] = some ⟨.faulted, ⟨.outOfBoundsAccess, 0, 0⟩, 0, [], [], []⟩ := by decide
theorem test_cut_off_instruction : oneStep [1, 0, 0] [] = some ⟨.faulted, ⟨.outOfBoundsAccess, 0, 3⟩, 0, [1, 0, 0].map some, [], []⟩ := by decide
theorem test_mode_before_operand_fetch : oneStep [201, 0, 0] [] =
    some ⟨.faulted, ⟨.invalidParameterMode, 2, 0⟩, 0, [201, 0, 0].map some, [], []⟩ := by decide
theorem test_negative_word : oneStep [-101] [] = some ⟨.faulted, ⟨.invalidOpcode, -1, 0⟩, 0, [some (-101)], [], []⟩ := by decide
theorem test_empty_queue_before_destination : oneStep [3, 5, 99] [] =
    some ⟨.faulted, ⟨.inputExhausted, 0, 0⟩, 0, [3, 5, 99].map some, [], []⟩ := by decide
theorem test_negative_destination : oneStep [1, 0, 0, -1, 99] [] =
    some ⟨.faulted, ⟨.outOfBoundsAccess, 0, -1⟩, 0, [1, 0, 0, -1, 99].map some, [], []⟩ := by decide
theorem test_terminal_state_has_no_step : nextOf (step { launched [99] [] with run := .halted }) = none := by decide

/-! ### The ALU at width 16 (95_test_vectors.md sections 2.3, 2.4), launch and read-back -/

theorem test_narrow_at_16 : narrow 16 (exactProduct 181 181) = some 32761 ∧ narrow 16 (exactProduct 182 182) = none ∧
    narrow 16 (exactProduct (-256) 128) = some (-32768) ∧ narrow 16 (exactProduct 256 128) = none ∧
    narrow 16 (exactSum 32767 1) = none := by decide
theorem test_launch_refused : launch [1101, 9223372036854775808, 0, 0, 99] [] = none ∧ launch [3, 0, 99] [9223372036854775808] = none := by
  decide
theorem test_halted_result : (nextOf (step (launched [99] [1, 2, 3]))).map (fun t => (result t, readBackInq t, endedOnHaltWord t)) =
    some (some (.output []), some [1, 2, 3], true) := by decide
theorem test_reset_runs_placed_word : (nextOf (step (State.reset.withFetchWord 8 4))).map seen =
    some ⟨.running, .clear, 2, [4, 0, 0, 0].map some, [4], []⟩ := by decide
theorem test_stored_zero_leaves_the_list : (launched [1101, -3, 3, 0, 99] []).mem.write 4 0 = some ⟨5, [(0, 1101), (1, -3), (2, 3)]⟩ := by
  decide

/-! ### Witnesses: states and operands that meet the hypotheses of the statements, at the ends of their ranges -/

/-- ADD #INT_MAX-1, #1, [4] before a cell 4 that holds 99, with two input values. -/
def w0 : State := launched [1101, 9223372036854775806, 1, 4, 99] [5, 6]

theorem witness_NegativeWordsAreInvalidOpcodes : ((-9223372036854775808 : Int) < 0) ∧ ((-1 : Int) < 0) := by decide
theorem witness_HighDigitsAreNotExamined : (0 : Int) ≤ 1 ∧ opcodeField 1 = 1 ∧ opcodeField 2 = 2 ∧ opcodeField 103 = 3 ∧ opcodeField 104 = 4 ∧
    opcodeField 99 = 99 := by decide
theorem witness_MemReadReturnsLatestWrite : IsCell w0 0 ∧ IsCell w0 4 ∧ ¬ IsCell w0 5 ∧ ¬ IsCell w0 (-1) ∧
    (∃ t, memWrite w0 4 7 = .ok t) ∧ (∃ s, launch [8, 9] [] = some s ∧ [8, 9][1]? = some 9) :=
  ⟨by decide, by decide, by decide, by decide, ⟨_, rfl⟩, ⟨_, rfl, rfl⟩⟩
theorem witness_MemWriteChangesOneCell : IsCell w0 0 ∧ IsCell w0 4 ∧ ¬ IsCell w0 5 ∧ ¬ IsCell w0 (-1) := by decide
theorem witness_PositionOperandReadsItsCell : w0.mem.read 4 = some 99 ∧ IsCell w0 0 ∧ ((-1 : Int) < 0) ∧ (w0.mem.len : Int) ≤ 5 := by decide
theorem witness_AddStoresExactSum : SourceIs w0 ⟨.immediate, 9223372036854775806⟩ 9223372036854775806 ∧ SourceIs w0 ⟨.position, 2⟩ 1 ∧
    (-2 ^ 63 ≤ (9223372036854775806 : Int) + 1 ∧ (9223372036854775806 : Int) + 1 ≤ 2 ^ 63 - 1) ∧ IsCell w0 (destAddress ⟨.position, 4⟩) ∧
    IsCell w0 (destAddress ⟨.immediate, 0⟩) := ⟨rfl, rfl, by decide, by decide, by decide⟩
theorem witness_MulStoresExactProduct : SourceIs w0 ⟨.position, 2⟩ 1 ∧ SourceIs w0 ⟨.immediate, -9223372036854775808⟩ (-9223372036854775808) ∧
    (-2 ^ 63 ≤ (1 : Int) * -9223372036854775808 ∧ (1 : Int) * -9223372036854775808 ≤ 2 ^ 63 - 1) ∧
    IsCell w0 (destAddress ⟨.position, 4⟩) := ⟨rfl, rfl, by decide, by decide⟩
theorem witness_AddAndMulFaultInOrder : SourceMissing w0 ⟨.position, 5⟩ ∧ SourceMissing w0 ⟨.position, -1⟩ ∧
    SourceIs w0 ⟨.immediate, 9223372036854775807⟩ 9223372036854775807 ∧ SourceIs w0 ⟨.position, 2⟩ 1 ∧
    2 ^ 63 - 1 < (9223372036854775807 : Int) + 1 ∧ (-9223372036854775808 : Int) + -1 < -2 ^ 63 ∧
    2 ^ 63 - 1 < (-9223372036854775808 : Int) * -1 ∧ ¬ IsCell w0 (destAddress ⟨.position, 5⟩) :=
  ⟨⟨rfl, by decide⟩, ⟨rfl, by decide⟩, rfl, rfl, by decide, by decide, by decide, by decide⟩
theorem witness_InStoresQueueHead : w0.inq = 5 :: [6] ∧ IsCell w0 (destAddress ⟨.position, 4⟩) := by decide
theorem witness_InOnEmptyQueueFaults : (launched [3, 0, 99] []).inq = [] := by decide
theorem witness_InWithBadDestinationKeepsQueue : w0.inq ≠ [] ∧ ¬ IsCell w0 (destAddress ⟨.position, 5⟩) := by decide
theorem witness_OutAppendsSourceValue : SourceIs w0 ⟨.position, 4⟩ 99 ∧ SourceIs w0 ⟨.immediate, -1⟩ (-1) ∧
    SourceMissing w0 ⟨.position, 5⟩ := ⟨rfl, rfl, rfl, by decide⟩
theorem witness_HaltSetsRunOnly : (0 : Int) ≤ 99 ∧ (99 : Int) % 100 = 99 ∧ (1199 : Int) % 100 = 99 := by decide
theorem witness_StepExecutesDecodedInstruction : w0.run = .running ∧
    decode (fetch w0) = .ok (.add ⟨.immediate, 9223372036854775806⟩ ⟨.immediate, 1⟩ ⟨.position, 4⟩) := by decide
theorem witness_StepExecutesInstructionInMemory : w0.run = .running ∧
    ∀ (k : Nat) (c : Word), (encode (.add ⟨.immediate, 9223372036854775806⟩ ⟨.immediate, 1⟩ ⟨.position, 4⟩))[k]? = some c →
      w0.mem.read ((w0.pc + k : Nat) : Int) = some c := by
  refine ⟨rfl, fun k c h => ?_⟩
  match k with
  | 0 => rw [← h]; decide
  | 1 => rw [← h]; decide
  | 2 => rw [← h]; decide
  | 3 => rw [← h]; decide
  | k + 4 => cases h
theorem witness_StepTakesDecodeFaults : State.reset.run = .running ∧ (State.reset.mem.len : Int) ≤ State.reset.pc ∧
    (launched [98] []).mem.read 0 = some 98 ∧ opcodeOf 98 = none ∧
    ((launched [10901, 0, 0, 0] []).mem.read 0 = some 10901 ∧ opcodeField 10901 = Opcode.number .add ∧ modeDigit 0 10901 = 9) ∧
    ((launched [20001, 0, 0, 0] []).mem.read 0 = some 20001 ∧ modeDigit 0 20001 = 0 ∧ modeDigit 1 20001 = 0 ∧ modeDigit 2 20001 = 2) ∧
    ((launched [1] []).pc + 1 + 0 = (launched [1] []).mem.len ∧ (launched [1, 0, 0] []).pc + 1 + 2 = (launched [1, 0, 0] []).mem.len) := by
  decide
theorem witness_PcAdvancesByTheWidth : w0.run = .running ∧ w0.pc + widthOf (.add ⟨.immediate, 1⟩ ⟨.immediate, 1⟩ ⟨.position, 4⟩) < w0.mem.len ∧
    (nextOf (exec (.add ⟨.immediate, 1⟩ ⟨.immediate, 1⟩ ⟨.position, 4⟩) w0)).map State.run = some .running := by decide
theorem witness_DefensiveHaltKeepsPcAndEffect : (launched [1, 0, 0, 0] [7]).run = .running ∧
    (launched [1, 0, 0, 0] [7]).mem.len ≤ (launched [1, 0, 0, 0] [7]).pc + widthOf (.add ⟨.position, 0⟩ ⟨.position, 0⟩ ⟨.position, 0⟩) ∧
    (nextOf (exec (.add ⟨.position, 0⟩ ⟨.position, 0⟩ ⟨.position, 0⟩) (launched [1, 0, 0, 0] [7]))).map State.run = some .halted ∧
    (nextOf (exec (.mul ⟨.position, 0⟩ ⟨.position, 0⟩ ⟨.position, 0⟩) (launched [2, 0, 0, 0] [7]))).map State.run = some .halted ∧
    (nextOf (exec (.input ⟨.position, 0⟩) (launched [3, 0] [7]))).map State.run = some .halted ∧
    (nextOf (exec (.output ⟨.position, 0⟩) (launched [4, 0] [7]))).map State.run = some .halted := by decide
/-- A step to Running, to Halted by HALT, to Halted defensively, and to Faulted: OnlySuccessorsAreNextHaltedFaulted,
HaltedOnlyByHaltOrDefensiveHalt, FaultEntryWritesFaultAndRun, FaultsArePreciseAndRecordedOnce, LengthNeverChanges,
OutputLogIsNeverRead. -/
theorem witness_steps_to_each_run_state : (nextOf (step w0)).map State.run = some .running ∧
    (nextOf (step (launched [99] []))).map State.run = some .halted ∧ (nextOf (step (launched [4, 0] []))).map State.run = some .halted ∧
    (nextOf (step State.reset)).map State.run = some .faulted := by decide
theorem witness_HaltWordTellsHaltFromDefensiveHalt :
    (decode (fetch (launched [4, 0] [])) = .ok (.output ⟨.position, 0⟩) ∧
      (nextOf (step (launched [4, 0] []))).map (fun t => (t.run, t.mem.read 0)) = some (.halted, some 4)) ∧
    (decode (fetch (launched [99] [])) = .ok .halt ∧
      (nextOf (step (launched [99] []))).map (fun t => (t.run, t.mem.read 0)) = some (.halted, some 99)) := by decide
theorem witness_RunAtHaltWordIsSafe : (launched [199] []).run = .running ∧ (launched [199] []).mem.read (launched [199] []).pc = some 199 ∧
    (0 : Int) ≤ 199 ∧ (199 : Int) % 100 = 99 := by decide
theorem witness_LengthNeverChanges_write : (w0.mem.len : Int) ≤ 5 := by decide
theorem witness_OnlyDestinationCellsChange : (nextOf (step w0)).map (fun t => decide (t.mem.read 4 ≠ w0.mem.read 4)) = some true := by decide
/-- The first and the last cell of the next fetch, for ADD, MUL and IN. -/
theorem witness_StoreIsSeenByNextFetch : w0.run = .running ∧
    (nextOf (exec (.add ⟨.immediate, 1⟩ ⟨.immediate, 1⟩ ⟨.position, 4⟩) w0)).map
      (fun t => decide (t.run = .running ∧ destAddress ⟨.position, 4⟩ = ((t.pc + 0 : Nat) : Int))) = some true ∧
    (nextOf (exec (.add ⟨.immediate, 1⟩ ⟨.immediate, 1⟩ ⟨.position, 7⟩) (launched [1101, 1, 1, 7, 1, 0, 0, 0] []))).map
      (fun t => decide (t.run = .running ∧ destAddress ⟨.position, 7⟩ = ((t.pc + 3 : Nat) : Int))) = some true ∧
    (nextOf (exec (.mul ⟨.immediate, 2⟩ ⟨.immediate, 3⟩ ⟨.position, 4⟩) w0)).map
      (fun t => decide (t.run = .running ∧ destAddress ⟨.position, 4⟩ = ((t.pc + 0 : Nat) : Int))) = some true ∧
    (nextOf (exec (.mul ⟨.immediate, 2⟩ ⟨.immediate, 3⟩ ⟨.position, 7⟩) (launched [1102, 2, 3, 7, 1, 0, 0, 0] []))).map
      (fun t => decide (t.run = .running ∧ destAddress ⟨.position, 7⟩ = ((t.pc + 3 : Nat) : Int))) = some true ∧
    (nextOf (exec (.input ⟨.position, 2⟩) w0)).map
      (fun t => decide (t.run = .running ∧ destAddress ⟨.position, 2⟩ = ((t.pc + 0 : Nat) : Int))) = some true ∧
    (nextOf (exec (.input ⟨.position, 5⟩) (launched [3, 5, 1, 0, 0, 0] [9]))).map
      (fun t => decide (t.run = .running ∧ destAddress ⟨.position, 5⟩ = ((t.pc + 3 : Nat) : Int))) = some true := by decide
theorem witness_InputIsConsumedInOrder : decode (fetch (launched [3, 1, 99] [7, 8])) = .ok (.input ⟨.position, 1⟩) ∧
    (nextOf (step (launched [3, 1, 99] [7, 8]))).map State.run = some .running := by decide
theorem witness_OutputIsAppendOnly : decode (fetch (launched [104, -7, 99] [])) = .ok (.output ⟨.immediate, -7⟩) ∧
    (nextOf (step (launched [104, -7, 99] []))).map State.run = some .running := by decide
theorem witness_InputBehindTheHeadIsNotSeen : (launched [3, 1, 99] [7]).inq ≠ [] ∧
    (nextOf (step (launched [3, 1, 99] [7]))).map State.inq = some [] := by decide
theorem witness_LaunchEstablishesInvariants : launch [1, 0, 0, 0, 99] [3] = some (launched [1, 0, 0, 0, 99] [3]) := by decide
/-- A run of two steps that ends Halted: EveryRunKeepsInvariants, RunsAgreeWithUnboundedIntegers, and the runs of
InputIsConsumedInOrder and OutputIsAppendOnly. -/
theorem witness_run_of_two_steps : ∃ t, Sys2Proof.core.run 2 (launched [1101, 100, -1, 4, 0] []) = .next t ∧
    t.fault.kind ≠ .arithmeticOverflow ∧ t.run = .halted := ⟨_, rfl, by decide, by decide⟩
theorem witness_EveryRunTerminates : w0.run = .running ∧ w0.pc < max w0.mem.len 1 ∧ State.reset.pc < max State.reset.mem.len 1 := by decide
theorem witness_LaunchLoadsImageAndInputs : (∀ v : Int, v ∈ ([-9223372036854775808, 99] ++ [9223372036854775807] : List Int) → -2 ^ 63 ≤ v ∧ v ≤ 2 ^ 63 - 1) ∧
    ¬ (∀ v : Int, v ∈ ([9223372036854775808] ++ [] : List Int) → -2 ^ 63 ≤ v ∧ v ≤ 2 ^ 63 - 1) := by decide
theorem witness_RelaunchOnlyAfterTheEnd : w0.run = .running ∧ (w0.setRun .halted).run ≠ .running := by decide
theorem witness_RunResultIsLogOrFault : (w0.setRun .halted).run = .halted ∧ (w0.setRun .faulted).run = .faulted := by decide
theorem witness_PlacedWordRunsNext : decodeTableWord 8 4 = some (.output ⟨.position, 0⟩) ∧ decodeTableWord 8 3 = some (.input ⟨.position, 0⟩) := by
  decide
/-- The greatest LEN there can be, with PC at its last even address, where an ADD is cut off by the end of memory. -/
def wBig : State :=
  { State.reset with mem := ⟨9223372036854775804, [(9223372036854775802, 1)]⟩, pc := 9223372036854775802 }

theorem witness_StepKeepsInvariants : wBig.Inv ∧
    (nextOf (step wBig)).map State.fault = some ⟨.outOfBoundsAccess, 0, 9223372036854775804⟩ := by
  refine ⟨⟨by decide, by decide, fun a v h => ?_, by simp [wBig, State.reset], by simp [wBig, State.reset], by decide, by decide,
    by decide, ⟨rfl, rfl⟩, by decide⟩, by decide⟩
  have : v = 1 ∨ v = 0 := by
    simp only [wBig, Memory.read, lookup] at h
    split at h
    · split at h <;> simp_all [unlisted]
    · cases h
  rcases this with rfl | rfl <;> decide

end Sys2Proof.Tests
end

section
/-! SUPPORT. The memory controller's reads and writes in terms of the cells there are, and the length of memory along an
execution: R42 and R54 of spec/20_memory.md. -/

open Sys2Proof Sys2Proof.Machine Sys2Proof.Claims

namespace Sys2Proof.Proofs

/-! ### The memory controller -/

theorem memRead_ok_of_isCell {s : State} {a : Int} (h : IsCell s a) : ∃ v, memRead s a = .ok v := by
  have hsome : (s.mem.read a).isSome = true := by rw [Memory.read_isSome, Memory.valid_iff]; exact h
  obtain ⟨v, hv⟩ := Option.isSome_iff_exists.1 hsome
  exact ⟨v, memRead_eq_ok.2 hv⟩

theorem valid_eq_false_of_not_isCell {s : State} {a : Int} (h : ¬ IsCell s a) : s.mem.valid a = false :=
  Bool.eq_false_iff.2 fun hv => h ((s.mem.valid_iff a).1 hv)

theorem memRead_error_of_not_isCell {s : State} {a : Int} (h : ¬ IsCell s a) : memRead s a = .error (.outOfBounds a) :=
  memRead_eq_error.2 ⟨(s.mem.read_eq_none a).2 (valid_eq_false_of_not_isCell h), rfl⟩

theorem memWrite_error_of_not_isCell {s : State} {a : Int} (v : Word) (h : ¬ IsCell s a) :
    memWrite s a v = .error (.outOfBounds a) :=
  memWrite_eq_error.2 ⟨valid_eq_false_of_not_isCell h, rfl⟩

theorem memRead_congr {s t : State} {a : Int} (h : t.mem.read a = s.mem.read a) : memRead t a = memRead s a := by
  simp only [memRead, h]

/-- What each cell reads as after a successful write. -/
theorem read_of_memWrite {s t : State} {a : Int} {v : Word} (h : memWrite s a v = .ok t) (b : Int) :
    t.mem.read b = if b = a then some v else s.mem.read b := by
  obtain ⟨m, hm, rfl⟩ := memWrite_eq_ok.1 h
  obtain ⟨-, -, hread⟩ := Memory.write_eq_some hm
  exact hread b

theorem memRead_memWrite_same {s t : State} {a : Int} {v : Word} (h : memWrite s a v = .ok t) : memRead t a = .ok v :=
  memRead_eq_ok.2 (by simp [read_of_memWrite h])

theorem memRead_memWrite_other {s t : State} {a b : Int} {v : Word} (h : memWrite s a v = .ok t) (hb : b ≠ a) :
    memRead t b = memRead s b :=
  memRead_congr (by simp [read_of_memWrite h, hb])

/-! ### The launch -/

/-- Everything a launch can give: the reset values, over the image's memory and the inputs (R160). -/
theorem launch_eq_some {image inputs : List Word} {s : State} : launch image inputs = some s ↔
    launchable Config.W image inputs = true ∧ s = ⟨.ofImage image, Config.entry, .running, .clear, inputs, []⟩ := by
  rw [launch, launchAt, Option.ite_none_right_eq_some, Option.some.injEq, eq_comm (b := s)]

theorem memRead_launch {image inputs : List Word} {s : State} {i : Nat} {v : Word} (hs : launch image inputs = some s)
    (hv : image[i]? = some v) : memRead s i = .ok v := by
  obtain ⟨-, rfl⟩ := launch_eq_some.1 hs
  rw [memRead_eq_ok, Memory.read_ofImage, hv]

/-! ### The length of memory -/

theorem write_len {m m' : Memory} {a : Int} {v : Word} (h : m.write a v = some m') : m'.len = m.len := by
  obtain ⟨-, hlen, -⟩ := Memory.write_eq_some h
  exact hlen

theorem effect_len {s u : State} {i : Instr} (h : Effect s i u) : u.mem.len = s.mem.len := by
  cases h with
  | add _ _ _ hm => exact write_len hm
  | mul _ _ _ hm => exact write_len hm
  | input _ hm => exact write_len hm
  | output _ => rfl

theorem exec_len {s t : State} {i : Instr} (h : exec i s = .next t) : t.mem.len = s.mem.len := by
  obtain ⟨-, he⟩ | ⟨r, -, he⟩ | ⟨u, hu, he⟩ := exec_cases i s <;> cases h.symm.trans he
  · rfl
  · rfl
  · rw [advance_mem, effect_len hu]

theorem step_len {s t : State} (h : step s = .next t) : t.mem.len = s.mem.len := by
  obtain ⟨-, ⟨e, -, rfl⟩ | ⟨i, -, he⟩⟩ := step_eq_next.1 h
  · rfl
  · exact exec_len he

/-! ### The statements -/

/-- Settles O9: a read answers exactly at the cells, a write decides what the written cell reads as and no other, and before
any write cell i holds element i of the image. -/
theorem memReadReturnsLatestWrite : Obligations.MemReadReturnsLatestWrite := by
  refine ⟨fun s a => ⟨?cell, ?noCell⟩, fun s t a v h => ⟨?same, ?other⟩, fun image inputs s i v hs hv => ?image⟩
  case cell => exact memRead_ok_of_isCell
  case noCell => exact memRead_error_of_not_isCell
  case same => exact memRead_memWrite_same h
  case other => exact fun b hb => memRead_memWrite_other h hb
  case image => exact memRead_launch hs hv

/-- Settles O33: every effect writes at most an existing cell, and an address at or beyond LEN is no cell. -/
theorem lengthNeverChanges : Obligations.LengthNeverChanges := by
  refine ⟨fun s t h => step_len h, fun s a v ha => ?_⟩
  have hnot : ¬ IsCell s a := fun ⟨_, hlt⟩ => absurd hlt (not_lt.2 ha)
  exact memWrite_error_of_not_isCell v hnot

end Sys2Proof.Proofs
end

section
/-! SUPPORT. The addressing-mode resolver's two modes, in terms of the memory controller: R81 and R82 of
spec/40_operand_resolution.md. -/

open Sys2Proof Sys2Proof.Machine Sys2Proof.Claims

namespace Sys2Proof.Proofs

theorem not_isCell_of_outside {s : State} {a : Int} (h : a < 0 ∨ (s.mem.len : Int) ≤ a) : ¬ IsCell s a := by
  rintro ⟨hnonneg, hlt⟩
  omega

/-- Settles O11: by R81 the Position mode is a read by the memory controller, which answers exactly at the cells. -/
theorem positionOperandReadsItsCell : Obligations.PositionOperandReadsItsCell := by
  intro s r
  rw [resolve_position]
  refine ⟨fun v hv => ?content, fun hcell => ?cell, fun hout => ?outside⟩
  case content => exact memRead_eq_ok.2 hv
  case cell => exact memRead_ok_of_isCell hcell
  case outside => exact memRead_error_of_not_isCell (not_isCell_of_outside hout)

/-- Settles O12: by R82 the Immediate mode reads nothing of the state. -/
theorem immediateOperandIsItsRawValue : Obligations.ImmediateOperandIsItsRawValue :=
  resolve_immediate

end Sys2Proof.Proofs
end

section
/-! SUPPORT. The completion of ADD and MUL: when their operands have values, their exact result is a cell value and their
destination is a cell, R92 and R93 of spec/41_arithmetic.md. -/

open Sys2Proof Sys2Proof.Machine Sys2Proof.Claims

namespace Sys2Proof.Proofs

/-! ### The hypotheses of the statements in the terms of the laws -/

theorem resolve_eq_ok_iff_sourceIs {s : State} {p : Param} {v : Word} : resolve s p = .ok v ↔ SourceIs s p v := by
  obtain ⟨m, r⟩ := p
  cases m with
  | position => rw [resolve_position, memRead_eq_ok, SourceIs]
  | immediate => rw [resolve_immediate, SourceIs, Except.ok.injEq, eq_comm]

/-- R5 at this hardware's width. -/
theorem isCellValue_W_iff {x : Int} : isCellValue Config.W x = true ↔ -2 ^ 63 ≤ x ∧ x ≤ 2 ^ 63 - 1 := by
  have hmin : intMin Config.W = -2 ^ 63 := by decide
  have hmax : intMax Config.W = 2 ^ 63 - 1 := by decide
  rw [isCellValue, Bool.and_eq_true, decide_eq_true_iff, decide_eq_true_iff, hmin, hmax]

/-! ### A store and the advance after it -/

theorem write_of_isCell {s : State} {a : Int} (v : Word) (h : IsCell s a) : ∃ m, s.mem.write a v = some m := by
  have hsome : (s.mem.write a v).isSome = true := by rw [Memory.write_isSome, Memory.valid_iff]; exact h
  exact Option.isSome_iff_exists.1 hsome

theorem storesOnly_of_write {s t : State} {a : Int} {v : Word} (h : s.mem.write a v = some t.mem) : StoresOnly s t a v := by
  obtain ⟨-, hlen, hread⟩ := Memory.write_eq_some h
  refine ⟨hlen, ?same, fun b hb => ?other⟩
  case same => rw [hread, if_pos rfl]
  case other => rw [hread, if_neg hb]

theorem advance_run_eq_or_halted (w : Nat) (s : State) : (advance w s).run = s.run ∨ (advance w s).run = .halted := by
  rw [advance_run]
  split
  · exact .inr rfl
  · exact .inl rfl

/-- An instruction whose effect is to store v in the cell at a completes with that store alone; the sequencer's part after it
can only move PC or halt the run. -/
theorem exec_storesOnly_of_effect {s : State} {i : Instr} {a : Int} {v : Word} (hcell : IsCell s a)
    (heffect : ∀ m, s.mem.write a v = some m → Effect s i (s.setMem m)) :
    ∃ t, exec i s = .next t ∧ StoresOnly s t a v ∧
      t.inq = s.inq ∧ t.out = s.out ∧ t.fault = s.fault ∧ (t.run = s.run ∨ t.run = .halted) := by
  obtain ⟨m, hm⟩ := write_of_isCell v hcell
  refine ⟨advance i.width (s.setMem m), (heffect m hm).exec_eq, ?store, ?inq, ?out, ?fault, ?run⟩
  case store => exact storesOnly_of_write (by rw [advance_mem, State.setMem_mem, hm])
  case inq => rw [advance_inq, State.setMem_inq]
  case out => rw [advance_out, State.setMem_out]
  case fault => rw [advance_fault, State.setMem_fault]
  case run => exact advance_run_eq_or_halted i.width (s.setMem m)

/-! ### The statements -/

/-- Settles O13: under these hypotheses the sum passes the overflow check (R92), so ADD's effect is its store. -/
theorem addStoresExactSum : Obligations.AddStoresExactSum := by
  intro s lhs rhs dest a b ha hb hlo hhi hcell
  have hfits : isCellValue Config.W (a + b) = true := isCellValue_W_iff.2 ⟨hlo, hhi⟩
  exact exec_storesOnly_of_effect hcell fun m hm =>
    .add (resolve_eq_ok_iff_sourceIs.2 ha) (resolve_eq_ok_iff_sourceIs.2 hb) hfits hm

/-- Settles O14: under these hypotheses the product passes the overflow check (R93), so MUL's effect is its store. -/
theorem mulStoresExactProduct : Obligations.MulStoresExactProduct := by
  intro s lhs rhs dest a b ha hb hlo hhi hcell
  have hfits : isCellValue Config.W (a * b) = true := isCellValue_W_iff.2 ⟨hlo, hhi⟩
  exact exec_storesOnly_of_effect hcell fun m hm =>
    .mul (resolve_eq_ok_iff_sourceIs.2 ha) (resolve_eq_ok_iff_sourceIs.2 hb) hfits hm

end Sys2Proof.Proofs
end

section
/-! SUPPORT. The output channel's completion and fault: R101 of spec/42_io.md. -/

open Sys2Proof Sys2Proof.Machine Sys2Proof.Claims

namespace Sys2Proof.Proofs

theorem resolve_error_of_sourceMissing {s : State} {p : Param} (h : SourceMissing s p) :
    resolve s p = .error (.outOfBounds p.raw) := by
  obtain ⟨hmode, hnot⟩ := h
  have hread : s.mem.read p.raw = none := (s.mem.read_eq_none p.raw).2 (valid_eq_false_of_not_isCell hnot)
  exact resolve_eq_error.2 ⟨hmode, hread, rfl⟩

theorem exec_output_of_sourceIs {s : State} {src : Param} {v : Word} (h : SourceIs s src v) :
    exec (.output src) s = .next (advance (Instr.output src).width (appendOutput v s)) :=
  (Effect.output (resolve_eq_ok_iff_sourceIs.2 h)).exec_eq

theorem exec_output_of_sourceMissing {s : State} {src : Param} (h : SourceMissing s src) :
    exec (.output src) s = .next (takeFault (.outOfBounds src.raw) s) :=
  (Raises.output (resolve_error_of_sourceMissing h)).exec_eq

/-- Settles O19: OUT's effect is the append alone (R101), and its only fault is that of reading its source (R81). -/
theorem outAppendsSourceValue : Obligations.OutAppendsSourceValue := by
  refine ⟨fun r rest => ⟨?word4, ?word104⟩, fun s src => ⟨fun v hv => ?completes, fun hmissing => ?faults⟩⟩
  case word4 => rfl
  case word104 => rfl
  case completes =>
    refine ⟨_, exec_output_of_sourceIs hv, ?out, ?mem, ?inq, ?fault, ?run⟩
    case out => rw [advance_out, appendOutput_out]
    case mem => rw [advance_mem, appendOutput_mem]
    case inq => rw [advance_inq, appendOutput_inq]
    case fault => rw [advance_fault, appendOutput_fault]
    case run => exact advance_run_eq_or_halted _ (appendOutput v s)
  case faults => exact ⟨_, exec_output_of_sourceMissing hmissing, rfl⟩

end Sys2Proof.Proofs
end

section
/-! SUPPORT. The two channels along an execution: only IN takes from the input queue and only OUT adds to the output log, one
value each, R102 and R103 of spec/42_io.md. -/

open Sys2Proof Sys2Proof.Machine Sys2Proof.Claims

namespace Sys2Proof.Proofs

/-! ### What a step is, in terms of its effect -/

/-- Every step takes a fault, executes HALT, or commits the effect of the decoded instruction and advances. -/
theorem step_cases {s t : State} (h : step s = .next t) :
    (∃ r, t = takeFault r s) ∨
    (decode (fetch s) = .ok .halt ∧ t = s.setRun .halted) ∨
    (∃ i u, decode (fetch s) = .ok i ∧ Effect s i u ∧ t = advance i.width u) := by
  obtain ⟨-, ⟨e, -, rfl⟩ | ⟨i, hi, hexec⟩⟩ := step_eq_next.1 h
  · exact .inl ⟨_, rfl⟩
  · obtain ⟨rfl, he⟩ | ⟨r, -, he⟩ | ⟨u, hu, he⟩ := exec_cases i s <;> cases hexec.symm.trans he
    · exact .inr (.inl ⟨hi, rfl⟩)
    · exact .inl ⟨r, rfl⟩
    · exact .inr (.inr ⟨i, u, hi, hu, rfl⟩)

/-- A step that does not fault commits the effect of the decoded instruction, unless that is HALT. -/
theorem effect_of_step {s t : State} {i : Instr} (h : step s = .next t) (hi : decode (fetch s) = .ok i) (hne : i ≠ .halt)
    (hrun : t.run ≠ .faulted) : ∃ u, Effect s i u ∧ t = advance i.width u := by
  obtain ⟨r, rfl⟩ | ⟨hhalt, -⟩ | ⟨j, u, hj, hu, rfl⟩ := step_cases h
  · exact absurd (takeFault_run r s) hrun
  · exact absurd (Except.ok.inj (hi.symm.trans hhalt)) hne
  · obtain rfl := Except.ok.inj (hi.symm.trans hj)
    exact ⟨u, hu, rfl⟩

/-! ### The input queue -/

/-- R100: IN's effect is to move the head of the queue to the destination. -/
theorem effect_input {s u : State} {dest : Param} (h : Effect s (.input dest) u) :
    ∃ v, s.inq = v :: u.inq ∧ u.mem.read (destAddress dest) = some v := by
  cases h with
  | input hq hm =>
    obtain ⟨-, -, hread⟩ := Memory.write_eq_some hm
    exact ⟨_, hq, by rw [State.setMem_mem, hread, destAddress, if_pos rfl]⟩

theorem effect_inq {s u : State} {i : Instr} (h : Effect s i u) : u.inq = s.inq ∨ ∃ dest, i = .input dest := by
  cases h with
  | add => exact .inl rfl
  | mul => exact .inl rfl
  | input => exact .inr ⟨_, rfl⟩
  | output => exact .inl rfl

theorem step_inq_of_input {s t : State} {dest : Param} (h : step s = .next t) (hi : decode (fetch s) = .ok (.input dest))
    (hrun : t.run ≠ .faulted) : ∃ v, s.inq = v :: t.inq ∧ t.mem.read (destAddress dest) = some v := by
  obtain ⟨u, hu, rfl⟩ := effect_of_step h hi (by simp) hrun
  rw [advance_inq, advance_mem]
  exact effect_input hu

theorem step_inq {s t : State} (h : step s = .next t) :
    t.inq = s.inq ∨
    ∃ dest v, decode (fetch s) = .ok (.input dest) ∧ s.inq = v :: t.inq ∧ t.mem.read (destAddress dest) = some v := by
  obtain ⟨r, rfl⟩ | ⟨-, rfl⟩ | ⟨i, u, hi, hu, rfl⟩ := step_cases h
  · exact .inl rfl
  · exact .inl rfl
  · rw [advance_inq, advance_mem]
    obtain hsame | ⟨dest, rfl⟩ := effect_inq hu
    · exact .inl hsame
    · obtain ⟨v, hv⟩ := effect_input hu
      exact .inr ⟨dest, v, hi, hv⟩

/-- The queue of t is that of s without at most k values from its front. -/
def TakesAtMost (k : Nat) (s t : State) : Prop := ∃ taken, s.inq = taken ++ t.inq ∧ taken.length ≤ k

theorem takesAtMost_refl (s : State) : TakesAtMost 0 s s := ⟨[], rfl, le_rfl⟩

theorem TakesAtMost.trans {j k : Nat} {s u t : State} (h₁ : TakesAtMost j s u) (h₂ : TakesAtMost k u t) :
    TakesAtMost (k + j) s t := by
  obtain ⟨first, hsu, hj⟩ := h₁
  obtain ⟨later, hut, hk⟩ := h₂
  refine ⟨first ++ later, by rw [hsu, hut, List.append_assoc], ?_⟩
  rw [List.length_append]
  omega

theorem step_takesAtMost_one {s t : State} (h : step s = .next t) : TakesAtMost 1 s t := by
  obtain hsame | ⟨dest, v, -, hpop, -⟩ := step_inq h
  · exact ⟨[], hsame.symm, Nat.zero_le 1⟩
  · exact ⟨[v], hpop, le_rfl⟩

/-! ### The output log -/

/-- R101: OUT's effect is to append the value of its source. -/
theorem effect_output {s u : State} {src : Param} (h : Effect s (.output src) u) :
    ∃ v, SourceIs s src v ∧ u.out = s.out ++ [v] := by
  cases h with
  | output hv => exact ⟨_, resolve_eq_ok_iff_sourceIs.1 hv, rfl⟩

theorem effect_out {s u : State} {i : Instr} (h : Effect s i u) : u.out = s.out ∨ ∃ src, i = .output src := by
  cases h with
  | add => exact .inl rfl
  | mul => exact .inl rfl
  | input => exact .inl rfl
  | output => exact .inr ⟨_, rfl⟩

theorem step_out_of_output {s t : State} {src : Param} (h : step s = .next t) (hi : decode (fetch s) = .ok (.output src))
    (hrun : t.run ≠ .faulted) : ∃ v, SourceIs s src v ∧ t.out = s.out ++ [v] := by
  obtain ⟨u, hu, rfl⟩ := effect_of_step h hi (by simp) hrun
  rw [advance_out]
  exact effect_output hu

theorem step_out {s t : State} (h : step s = .next t) :
    t.out = s.out ∨ ∃ src v, decode (fetch s) = .ok (.output src) ∧ SourceIs s src v ∧ t.out = s.out ++ [v] := by
  obtain ⟨r, rfl⟩ | ⟨-, rfl⟩ | ⟨i, u, hi, hu, rfl⟩ := step_cases h
  · exact .inl rfl
  · exact .inl rfl
  · rw [advance_out]
    obtain hsame | ⟨src, rfl⟩ := effect_out hu
    · exact .inl hsame
    · obtain ⟨v, hv⟩ := effect_output hu
      exact .inr ⟨src, v, hi, hv⟩

/-- The log of t is that of s with at most k values more at its end. -/
def EmitsAtMost (k : Nat) (s t : State) : Prop := ∃ emitted, t.out = s.out ++ emitted ∧ emitted.length ≤ k

theorem emitsAtMost_refl (s : State) : EmitsAtMost 0 s s := ⟨[], (List.append_nil s.out).symm, le_rfl⟩

theorem EmitsAtMost.trans {j k : Nat} {s u t : State} (h₁ : EmitsAtMost j s u) (h₂ : EmitsAtMost k u t) :
    EmitsAtMost (k + j) s t := by
  obtain ⟨first, hsu, hj⟩ := h₁
  obtain ⟨later, hut, hk⟩ := h₂
  refine ⟨first ++ later, by rw [hut, hsu, List.append_assoc], ?_⟩
  rw [List.length_append]
  omega

theorem step_emitsAtMost_one {s t : State} (h : step s = .next t) : EmitsAtMost 1 s t := by
  obtain hsame | ⟨src, v, -, -, happend⟩ := step_out h
  · exact ⟨[], by rw [hsame, List.append_nil], Nat.zero_le 1⟩
  · exact ⟨[v], happend, le_rfl⟩

/-! ### The statements -/

/-- Settles O36: of the effects only IN's touches the queue, so a step takes at most its head and a run at most one value from
the front for each step. -/
theorem inputIsConsumedInOrder : Obligations.InputIsConsumedInOrder := by
  refine ⟨fun s t h => step_inq h, fun s t dest h hi hrun => step_inq_of_input h hi hrun, ?run⟩
  case run =>
    exact run_induction (P := TakesAtMost) takesAtMost_refl fun k s u t hstep ih => (step_takesAtMost_one hstep).trans ih

/-- Settles O37: of the effects only OUT's touches the log, so a step appends at most one value to it and a run at most one
for each step. -/
theorem outputIsAppendOnly : Obligations.OutputIsAppendOnly := by
  refine ⟨fun s t h => step_out h, fun s t src h hi hrun => step_out_of_output h hi hrun, ?run⟩
  case run =>
    exact run_induction (P := EmitsAtMost) emitsAtMost_refl fun k s u t hstep ih => (step_emitsAtMost_one hstep).trans ih

end Sys2Proof.Proofs
end

section
/-! SUPPORT. The sequencer and the end of a run: R112, R116 and R119 of spec/43_control.md. -/

open Sys2Proof Sys2Proof.Machine Sys2Proof.Claims

namespace Sys2Proof.Proofs

/-! ### When a step is enabled -/

theorem step_next_iff_running {s : State} : (∃ t, step s = .next t) ↔ s.run = .running := by
  constructor
  · rintro ⟨t, h⟩
    obtain ⟨hrunning, -⟩ := step_eq_next.1 h
    exact hrunning
  · exact step_of_running

/-! ### The advance of PC -/

theorem width_eq_widthOf (i : Instr) : i.width = widthOf i := by cases i <;> rfl

theorem effect_pc {s u : State} {i : Instr} (h : Effect s i u) : u.pc = s.pc := by
  cases h with
  | add => rfl
  | mul => rfl
  | input => rfl
  | output => rfl

theorem effect_run {s u : State} {i : Instr} (h : Effect s i u) : u.run = s.run := by
  cases h with
  | add => rfl
  | mul => rfl
  | input => rfl
  | output => rfl

/-- An execution that does not fault commits the instruction's effect and advances, unless the instruction is HALT. -/
theorem effect_of_exec {s t : State} {i : Instr} (h : exec i s = .next t) (hne : i ≠ .halt) (hrun : t.run ≠ .faulted) :
    ∃ u, Effect s i u ∧ t = advance i.width u := by
  obtain ⟨hhalt, -⟩ | ⟨r, -, he⟩ | ⟨u, hu, he⟩ := exec_cases i s
  · exact absurd hhalt hne
  · cases h.symm.trans he
    exact absurd (takeFault_run r s) hrun
  · cases h.symm.trans he
    exact ⟨u, hu, rfl⟩

/-- R112: the sequencer after an effect, while PC + width stays below LEN. -/
theorem advance_of_effect {s u : State} {i : Instr} (h : Effect s i u) (hlt : s.pc + widthOf i < s.mem.len) :
    (advance i.width u).pc = s.pc + widthOf i ∧ (advance i.width u).run = s.run := by
  have hroom : ¬ u.mem.len ≤ u.pc + i.width := by rw [effect_len h, effect_pc h, width_eq_widthOf]; omega
  constructor
  · rw [advance_pc, if_neg hroom, effect_pc h, width_eq_widthOf]
  · rw [advance_run, if_neg hroom, effect_run h]

/-! ### The read-back after the end -/

theorem ended_of_not_running {s : State} (h : s.run ≠ .running) : s.ended = true := decide_eq_true h

theorem readBackCell_of_ended {s : State} (h : s.ended = true) (a : Int) : readBackCell s a = s.mem.read a := if_pos h

theorem readBackOut_of_ended {s : State} (h : s.ended = true) : readBackOut s = some s.out := if_pos h

theorem readBackInq_of_ended {s : State} (h : s.ended = true) : readBackInq s = some s.inq := if_pos h

theorem result_of_halted {s : State} (h : s.run = .halted) : result s = some (.output s.out) := by
  rw [result, h]

theorem result_of_faulted {s : State} (h : s.run = .faulted) : result s = some (.fault s.fault) := by
  rw [result, h]

/-! ### The statements -/

/-- Settles O25: no effect touches PC, RUN or LEN, so the sequencer judges PC + width against the LEN the step began with. -/
theorem pcAdvancesByTheWidth : Obligations.PcAdvancesByTheWidth := by
  intro s t i hrunning hexec hrun hne hlt
  obtain ⟨u, hu, rfl⟩ := effect_of_exec hexec hne hrun
  obtain ⟨hpc, hkeep⟩ := advance_of_effect hu hlt
  exact ⟨hpc, hkeep.trans hrunning⟩

/-- Settles O24: a running state has a next state whatever it fetches, and no other state has one. -/
theorem stepEnabledExactlyWhenRunning : Obligations.StepEnabledExactlyWhenRunning :=
  fun _ => step_next_iff_running

/-- Settles O49: either end gives its own result, and both open the same read-back. -/
theorem runResultIsLogOrFault : Obligations.RunResultIsLogOrFault := by
  refine fun s => ⟨result_of_halted, result_of_faulted, fun hend => ?readBack⟩
  case readBack =>
    have hended := ended_of_not_running hend
    exact ⟨readBackCell_of_ended hended, readBackOut_of_ended hended, readBackInq_of_ended hended⟩

end Sys2Proof.Proofs
end

section
/-! SUPPORT. The input channel's fault on an empty queue: R134 of spec/60_exceptions.md. -/

open Sys2Proof Sys2Proof.Machine Sys2Proof.Claims

namespace Sys2Proof.Proofs

/-- IN judges the queue before its destination, so this holds whether or not the destination is a cell. -/
theorem exec_input_of_inq_eq_nil {s : State} (dest : Param) (h : s.inq = []) :
    exec (.input dest) s = .next (takeFault .inputExhausted s) := by
  have heffect : inputEffect dest s = .error .inputExhausted := inputEffect_eq_error.2 (.inl ⟨h, rfl⟩)
  exact (Raises.input heffect).exec_eq

/-- Settles O17: on an empty queue IN raises InputExhausted whatever its destination, and taking the fault changes FAULT and
RUN alone (R137). -/
theorem inOnEmptyQueueFaults : Obligations.InOnEmptyQueueFaults :=
  fun _ dest hempty => ⟨_, exec_input_of_inq_eq_nil dest hempty, rfl⟩

end Sys2Proof.Proofs
end

section
/-! SUPPORT. The decoder as a whole: what an instruction's cells decode to, which words decode, and which error is reported,
R60 to R73 of spec/30_encoding.md. -/

open Sys2Proof Sys2Proof.Machine Sys2Proof.Claims

namespace Sys2Proof.Proofs

/-! ### The operands of an instruction -/

/-- R63: the operands of an instruction, in the order of their cells. -/
def operands : Instr → List Param
  | .add lhs rhs dest => [lhs, rhs, dest]
  | .mul lhs rhs dest => [lhs, rhs, dest]
  | .input dest => [dest]
  | .output src => [src]
  | .halt => []

theorem wf_iff_operands (i : Instr) : i.wf = true ↔ ∀ p ∈ operands i, isCellValue Config.W p.raw = true := by
  cases i <;> simp [Instr.wf, operands, Param.wf, and_assoc]

theorem mode_digit_bounds (m : Mode) : 0 ≤ m.digit ∧ m.digit ≤ 1 := by cases m <;> decide

theorem opcode_number_bounds (o : Opcode) : 1 ≤ o.number ∧ o.number ≤ 99 := by cases o <;> decide

theorem arity_le_three (o : Opcode) : o.arity ≤ 3 := by cases o <;> decide

theorem isCellValue_of_bounds {x : Int} (hlo : 0 ≤ x) (hhi : x ≤ 11199) : isCellValue Config.W x = true :=
  isCellValue_W_iff.2 ⟨by omega, by omega⟩

/-- R60, R65: the cells of an instruction are its word, which is a cell value, and the raw values of its operands. -/
theorem encode_eq_cons (i : Instr) :
    ∃ iw, isCellValue Config.W iw = true ∧ encode i = iw :: (operands i).map Param.raw := by
  have wordF3 (o : Opcode) (p q r : Param) :
      isCellValue Config.W (o.number + 100 * p.mode.digit + 1000 * q.mode.digit + 10000 * r.mode.digit) = true := by
    have := opcode_number_bounds o
    have := mode_digit_bounds p.mode
    have := mode_digit_bounds q.mode
    have := mode_digit_bounds r.mode
    exact isCellValue_of_bounds (by omega) (by omega)
  have wordF1 (o : Opcode) (p : Param) : isCellValue Config.W (o.number + 100 * p.mode.digit) = true := by
    have := opcode_number_bounds o
    have := mode_digit_bounds p.mode
    exact isCellValue_of_bounds (by omega) (by omega)
  cases i with
  | add lhs rhs dest => exact ⟨_, wordF3 .add lhs rhs dest, rfl⟩
  | mul lhs rhs dest => exact ⟨_, wordF3 .mul lhs rhs dest, rfl⟩
  | input dest => exact ⟨_, wordF1 .input dest, rfl⟩
  | output src => exact ⟨_, wordF1 .output src, rfl⟩
  | halt => exact ⟨_, by decide, rfl⟩

theorem encode_length (i : Instr) : (encode i).length = widthOf i := by cases i <;> rfl

/-! ### The decoder under each opcode -/

section
variable {iw : Word} (rest : List Word)

theorem decode_of_opcode_add (h : opcodeField iw = Opcode.number .add) :
    decode (iw :: rest) = (decodeF3 iw rest).map fun p => .add p.1 p.2.1 p.2.2 := by
  simp [decode, opcodeOf_eq_some.2 h]

theorem decode_of_opcode_mul (h : opcodeField iw = Opcode.number .mul) :
    decode (iw :: rest) = (decodeF3 iw rest).map fun p => .mul p.1 p.2.1 p.2.2 := by
  simp [decode, opcodeOf_eq_some.2 h]

theorem decode_of_opcode_input (h : opcodeField iw = Opcode.number .input) :
    decode (iw :: rest) = (decodeF1 iw rest).map .input := by
  simp [decode, opcodeOf_eq_some.2 h]

theorem decode_of_opcode_output (h : opcodeField iw = Opcode.number .output) :
    decode (iw :: rest) = (decodeF1 iw rest).map .output := by
  simp [decode, opcodeOf_eq_some.2 h]

theorem decode_of_opcode_halt (h : opcodeField iw = Opcode.number .halt) : decode (iw :: rest) = .ok .halt := by
  simp [decode, opcodeOf_eq_some.2 h]

/-- R70: a field outside the closed set is reported as it stands. -/
theorem decode_of_no_opcode (h : ∀ o : Opcode, opcodeField iw ≠ o.number) :
    decode (iw :: rest) = .error (.invalidOpcode (opcodeField iw)) :=
  decode_of_invalidOpcode rest (Option.eq_none_iff_forall_ne_some.2 fun o ho => h o (opcodeOf_eq_some.1 ho))

end

/-! ### The two formats -/

/-- R66: a digit of 0 or 1 is the digit of a mode. -/
theorem exists_mode_of_legal {d : Int} (h : d = 0 ∨ d = 1) : ∃ m : Mode, d = m.digit := by
  rcases h with rfl | rfl
  · exact ⟨.position, rfl⟩
  · exact ⟨.immediate, rfl⟩

theorem decodeF3_of_modes {iw : Word} {m0 m1 m2 : Mode} (h0 : modeDigit 0 iw = m0.digit) (h1 : modeDigit 1 iw = m1.digit)
    (h2 : modeDigit 2 iw = m2.digit) (r0 r1 r2 : Word) (rest : List Word) :
    decodeF3 iw (r0 :: r1 :: r2 :: rest) = .ok (⟨m0, r0⟩, ⟨m1, r1⟩, ⟨m2, r2⟩) := by
  simp only [decodeF3, h0, h1, h2, decodeMode_digit]
  rfl

theorem decodeF1_of_mode {iw : Word} {m0 : Mode} (h0 : modeDigit 0 iw = m0.digit) (r0 : Word) (rest : List Word) :
    decodeF1 iw (r0 :: rest) = .ok ⟨m0, r0⟩ := by
  simp only [decodeF1, h0, decodeMode_digit]
  rfl

/-- R61, R65: decoding the cells of an instruction gives that instruction back. -/
theorem decode_encode_append (i : Instr) (rest : List Word) : decode (encode i ++ rest) = .ok i := by
  cases i with
  | add lhs rhs dest =>
    obtain ⟨-, hop, h0, h1, h2⟩ := wordF3_fields .add lhs.mode rhs.mode dest.mode
    exact (decode_of_opcode_add _ hop).trans (congrArg _ (decodeF3_of_modes h0 h1 h2 ..))
  | mul lhs rhs dest =>
    obtain ⟨-, hop, h0, h1, h2⟩ := wordF3_fields .mul lhs.mode rhs.mode dest.mode
    exact (decode_of_opcode_mul _ hop).trans (congrArg _ (decodeF3_of_modes h0 h1 h2 ..))
  | input dest =>
    obtain ⟨-, hop, h0⟩ := wordF1_fields .input dest.mode
    exact (decode_of_opcode_input _ hop).trans (congrArg _ (decodeF1_of_mode h0 ..))
  | output src =>
    obtain ⟨-, hop, h0⟩ := wordF1_fields .output src.mode
    exact (decode_of_opcode_output _ hop).trans (congrArg _ (decodeF1_of_mode h0 ..))
  | halt => exact decode_of_opcode_halt rest (by decide)

/-! ### The first error among n operands -/

/-- The first n mode digits of a word are legal (R66). -/
def ModesLegal (n : Nat) (iw : Word) : Prop := ∀ k, k < n → modeDigit k iw = 0 ∨ modeDigit k iw = 1

/-- What D7 makes the decoder report of n operands: the lowest bad mode digit, then the first missing operand cell. -/
def OperandsError (n : Nat) (iw : Word) (rest : List Word) (e : DecodeError) : Prop :=
  (∃ k, k < n ∧ modeDigit k iw ≠ 0 ∧ modeDigit k iw ≠ 1 ∧ (∀ j, j < k → modeDigit j iw = 0 ∨ modeDigit j iw = 1) ∧
    e = .invalidMode (modeDigit k iw)) ∨
  (ModesLegal n iw ∧ rest.length < n ∧ e = .missingCell (rest.length + 1))

/-- Of n operands there is an error to report, or all are legal. -/
theorem operandsError_or_legal (n : Nat) (iw : Word) (rest : List Word) :
    (∃ e, OperandsError n iw rest e) ∨ (n ≤ rest.length ∧ ModesLegal n iw) := by
  classical
  by_cases hmodes : ModesLegal n iw
  · rcases lt_or_ge rest.length n with hlen | hlen
    · exact .inl ⟨_, .inr ⟨hmodes, hlen, rfl⟩⟩
    · exact .inr ⟨hlen, hmodes⟩
  · have hbad : ∃ k, ¬ (k < n → modeDigit k iw = 0 ∨ modeDigit k iw = 1) := not_forall.1 hmodes
    obtain ⟨hlt, hnot⟩ := Classical.not_imp.1 (Nat.find_spec hbad)
    obtain ⟨hne0, hne1⟩ := not_or.1 hnot
    exact .inl ⟨_, .inl ⟨_, hlt, hne0, hne1, fun j hj => not_not.1 (Nat.find_min hbad hj) (hj.trans hlt), rfl⟩⟩

theorem decodeF3_of_operandsError {iw : Word} {rest : List Word} {e : DecodeError} (h : OperandsError 3 iw rest e) :
    decodeF3 iw rest = .error e := by
  rcases h with ⟨k, hk, hne0, hne1, hbelow, rfl⟩ | ⟨hmodes, hlen, rfl⟩
  · have hbad := decodeMode_eq_error.2 ⟨hne0, hne1, rfl⟩
    match k, hk with
    | 0, _ =>
      simp only [decodeF3, hbad]
      rfl
    | 1, _ =>
      obtain ⟨m0, h0⟩ := exists_mode_of_legal (hbelow 0 (by omega))
      simp only [decodeF3, h0, decodeMode_digit, hbad]
      rfl
    | 2, _ =>
      obtain ⟨m0, h0⟩ := exists_mode_of_legal (hbelow 0 (by omega))
      obtain ⟨m1, h1⟩ := exists_mode_of_legal (hbelow 1 (by omega))
      simp only [decodeF3, h0, h1, decodeMode_digit, hbad]
      rfl
  · obtain ⟨m0, h0⟩ := exists_mode_of_legal (hmodes 0 (by omega))
    obtain ⟨m1, h1⟩ := exists_mode_of_legal (hmodes 1 (by omega))
    obtain ⟨m2, h2⟩ := exists_mode_of_legal (hmodes 2 (by omega))
    simp only [decodeF3, h0, h1, h2, decodeMode_digit]
    match rest, hlen with
    | [], _ => rfl
    | [_], _ => rfl
    | [_, _], _ => rfl

theorem decodeF3_of_legal {iw : Word} {rest : List Word} (hlen : 3 ≤ rest.length) (hmodes : ModesLegal 3 iw) :
    ∃ p, decodeF3 iw rest = .ok p ∧ [p.1.raw, p.2.1.raw, p.2.2.raw] <+: rest := by
  obtain ⟨m0, h0⟩ := exists_mode_of_legal (hmodes 0 (by omega))
  obtain ⟨m1, h1⟩ := exists_mode_of_legal (hmodes 1 (by omega))
  obtain ⟨m2, h2⟩ := exists_mode_of_legal (hmodes 2 (by omega))
  match rest, hlen with
  | r0 :: r1 :: r2 :: rest, _ => exact ⟨_, decodeF3_of_modes h0 h1 h2 r0 r1 r2 rest, rest, rfl⟩

theorem decodeF1_of_operandsError {iw : Word} {rest : List Word} {e : DecodeError} (h : OperandsError 1 iw rest e) :
    decodeF1 iw rest = .error e := by
  rcases h with ⟨k, hk, hne0, hne1, -, rfl⟩ | ⟨hmodes, hlen, rfl⟩
  · obtain rfl : k = 0 := by omega
    simp only [decodeF1, decodeMode_eq_error.2 ⟨hne0, hne1, rfl⟩]
    rfl
  · obtain ⟨m0, h0⟩ := exists_mode_of_legal (hmodes 0 (by omega))
    obtain rfl : rest = [] := List.length_eq_zero_iff.1 (by omega)
    simp only [decodeF1, h0, decodeMode_digit]
    rfl

theorem decodeF1_of_legal {iw : Word} {rest : List Word} (hlen : 1 ≤ rest.length) (hmodes : ModesLegal 1 iw) :
    ∃ p, decodeF1 iw rest = .ok p ∧ [p.raw] <+: rest := by
  obtain ⟨m0, h0⟩ := exists_mode_of_legal (hmodes 0 (by omega))
  match rest, hlen with
  | r0 :: rest, _ => exact ⟨_, decodeF1_of_mode h0 r0 rest, rest, rfl⟩

/-! ### Which words decode -/

theorem decode_of_operandsError {iw : Word} {rest : List Word} {o : Opcode} {e : DecodeError}
    (ho : opcodeField iw = o.number) (h : OperandsError o.arity iw rest e) : decode (iw :: rest) = .error e := by
  cases o with
  | add => rw [decode_of_opcode_add rest ho, decodeF3_of_operandsError h]; rfl
  | mul => rw [decode_of_opcode_mul rest ho, decodeF3_of_operandsError h]; rfl
  | input => rw [decode_of_opcode_input rest ho, decodeF1_of_operandsError h]; rfl
  | output => rw [decode_of_opcode_output rest ho, decodeF1_of_operandsError h]; rfl
  | halt =>
    obtain ⟨k, hk, -⟩ | ⟨-, hlen, -⟩ := h
    · exact absurd hk (Nat.not_lt_zero k)
    · exact absurd hlen (Nat.not_lt_zero rest.length)

/-- A legal word decodes to an instruction of its opcode, over the cells that follow it (R65, R72). -/
theorem decode_of_legal {iw : Word} {rest : List Word} {o : Opcode} (ho : opcodeField iw = o.number)
    (hlen : o.arity ≤ rest.length) (hmodes : ModesLegal o.arity iw) :
    ∃ i, decode (iw :: rest) = .ok i ∧ i.opcode = o ∧ (operands i).map Param.raw <+: rest := by
  cases o with
  | add =>
    obtain ⟨p, hp, hraws⟩ := decodeF3_of_legal hlen hmodes
    exact ⟨.add p.1 p.2.1 p.2.2, by rw [decode_of_opcode_add rest ho, hp]; rfl, rfl, hraws⟩
  | mul =>
    obtain ⟨p, hp, hraws⟩ := decodeF3_of_legal hlen hmodes
    exact ⟨.mul p.1 p.2.1 p.2.2, by rw [decode_of_opcode_mul rest ho, hp]; rfl, rfl, hraws⟩
  | input =>
    obtain ⟨p, hp, hraws⟩ := decodeF1_of_legal hlen hmodes
    exact ⟨.input p, by rw [decode_of_opcode_input rest ho, hp]; rfl, rfl, hraws⟩
  | output =>
    obtain ⟨p, hp, hraws⟩ := decodeF1_of_legal hlen hmodes
    exact ⟨.output p, by rw [decode_of_opcode_output rest ho, hp]; rfl, rfl, hraws⟩
  | halt => exact ⟨.halt, decode_of_opcode_halt rest ho, rfl, List.nil_prefix⟩

/-- Everything the decoder can find in a word: no opcode, an error among the operands, or a legal instruction. -/
theorem word_cases (iw : Word) (rest : List Word) :
    (∀ o : Opcode, opcodeField iw ≠ o.number) ∨
    ∃ o : Opcode, opcodeField iw = o.number ∧
      ((∃ e, OperandsError o.arity iw rest e) ∨ (o.arity ≤ rest.length ∧ ModesLegal o.arity iw)) := by
  by_cases h : ∃ o : Opcode, opcodeField iw = o.number
  · obtain ⟨o, ho⟩ := h
    exact .inr ⟨o, ho, operandsError_or_legal o.arity iw rest⟩
  · exact .inl (not_exists.1 h)

/-- What decodes to an instruction is a legal word of its opcode and, after it, the raw values of its operands. -/
theorem decode_eq_ok {iw : Word} {rest : List Word} {i : Instr} (h : decode (iw :: rest) = .ok i) :
    opcodeField iw = i.opcode.number ∧ i.opcode.arity ≤ rest.length ∧ ModesLegal i.opcode.arity iw ∧
      (operands i).map Param.raw <+: rest := by
  obtain hnone | ⟨o, ho, ⟨e, he⟩ | ⟨hlen, hmodes⟩⟩ := word_cases iw rest
  · exact nomatch h.symm.trans (decode_of_no_opcode rest hnone)
  · exact nomatch h.symm.trans (decode_of_operandsError ho he)
  · obtain ⟨j, hj, rfl, hraws⟩ := decode_of_legal ho hlen hmodes
    obtain rfl := Except.ok.inj (h.symm.trans hj)
    exact ⟨ho, hlen, hmodes, hraws⟩

theorem decode_eq_ok_iff (iw : Word) (rest : List Word) :
    (∃ i, decode (iw :: rest) = .ok i) ↔
      ∃ o : Opcode, opcodeField iw = o.number ∧ o.arity ≤ rest.length ∧ ModesLegal o.arity iw := by
  constructor
  · rintro ⟨i, hi⟩
    obtain ⟨ho, hlen, hmodes, -⟩ := decode_eq_ok hi
    exact ⟨i.opcode, ho, hlen, hmodes⟩
  · rintro ⟨o, ho, hlen, hmodes⟩
    obtain ⟨i, hi, -⟩ := decode_of_legal ho hlen hmodes
    exact ⟨i, hi⟩

theorem decode_eq_error_iff (iw : Word) (rest : List Word) (e : DecodeError) :
    decode (iw :: rest) = .error e ↔
      ((∀ o : Opcode, opcodeField iw ≠ o.number) ∧ e = .invalidOpcode (opcodeField iw)) ∨
      (∃ o : Opcode, opcodeField iw = o.number ∧ OperandsError o.arity iw rest e) := by
  constructor
  · intro h
    obtain hnone | ⟨o, ho, ⟨e', he'⟩ | ⟨hlen, hmodes⟩⟩ := word_cases iw rest
    · exact .inl ⟨hnone, Except.error.inj (h.symm.trans (decode_of_no_opcode rest hnone))⟩
    · obtain rfl := Except.error.inj (h.symm.trans (decode_of_operandsError ho he'))
      exact .inr ⟨o, ho, he'⟩
    · obtain ⟨i, hi, -⟩ := decode_of_legal ho hlen hmodes
      exact nomatch h.symm.trans hi
  · rintro (⟨hnone, rfl⟩ | ⟨o, ho, he⟩)
    · exact decode_of_no_opcode rest hnone
    · exact decode_of_operandsError ho he

/-! ### Words that are negative, end in 99, or differ above the mode digits -/

theorem no_opcode_of_neg {iw : Word} (h : iw < 0) (o : Opcode) : opcodeField iw ≠ o.number := by
  have hfield := opcodeField_of_neg h
  have hnumber := opcode_number_bounds o
  omega

/-- R110, D8: every non-negative word ending in 99 is HALT. -/
theorem decode_of_halt_word {iw : Int} (rest : List Word) (h : 0 ≤ iw) (h99 : iw % 100 = 99) :
    decode (iw :: rest) = .ok .halt :=
  decode_of_opcode_halt rest ((opcodeField_of_nonneg h).trans h99)

/-- R68: the decoder looks at nothing of a word but its opcode field and as many mode digits as the arity says. -/
theorem decode_congr {iw iw' : Word} {o : Opcode} (rest : List Word) (ho : opcodeField iw = o.number)
    (ho' : opcodeField iw' = o.number) (hdigits : ∀ k, k < o.arity → modeDigit k iw' = modeDigit k iw) :
    decode (iw' :: rest) = decode (iw :: rest) := by
  have hF3 (harity : 3 ≤ o.arity) : decodeF3 iw' rest = decodeF3 iw rest := by
    simp only [decodeF3, hdigits 0 (by omega), hdigits 1 (by omega), hdigits 2 (by omega)]
  have hF1 (harity : 1 ≤ o.arity) : decodeF1 iw' rest = decodeF1 iw rest := by
    simp only [decodeF1, hdigits 0 (by omega)]
  cases o with
  | add => rw [decode_of_opcode_add rest ho, decode_of_opcode_add rest ho', hF3 le_rfl]
  | mul => rw [decode_of_opcode_mul rest ho, decode_of_opcode_mul rest ho', hF3 le_rfl]
  | input => rw [decode_of_opcode_input rest ho, decode_of_opcode_input rest ho', hF1 le_rfl]
  | output => rw [decode_of_opcode_output rest ho, decode_of_opcode_output rest ho', hF1 le_rfl]
  | halt => rw [decode_of_opcode_halt rest ho, decode_of_opcode_halt rest ho']

section
variable {iw n : Int} (hiw : 0 ≤ iw) (hn : 0 ≤ n) (a : Nat)
include hiw hn

theorem opcodeField_add_high : opcodeField (iw + 10 ^ (2 + a) * n) = opcodeField iw := by
  have hsplit : (10 : Int) ^ (2 + a) * n = 100 * (10 ^ a * n) := by rw [pow_add, mul_assoc]; norm_num
  rw [opcodeField_of_nonneg (by positivity), opcodeField_of_nonneg hiw, hsplit, Int.add_mul_emod_self_left]

theorem modeDigit_add_high {k : Nat} (hk : k < a) : modeDigit k (iw + 10 ^ (2 + a) * n) = modeDigit k iw := by
  obtain ⟨d, rfl⟩ := Nat.exists_eq_add_of_lt hk
  have hsplit : (10 : Int) ^ (2 + (k + d + 1)) * n = ((10 ^ (2 + k) : Nat) : Int) * (10 * (10 ^ d * n)) := by
    push_cast; ring
  have hpos : ((10 ^ (2 + k) : Nat) : Int) ≠ 0 := by positivity
  rw [modeDigit_of_nonneg (by positivity), modeDigit_of_nonneg hiw, hsplit, Int.add_mul_ediv_left _ _ hpos,
    Int.add_mul_emod_self_left]

/-- D8: digits above the highest mode digit that the arity gives are not examined. -/
theorem decode_add_high {o : Opcode} (rest : List Word) (ho : opcodeField iw = o.number) :
    decode ((iw + 10 ^ (2 + o.arity) * n) :: rest) = decode (iw :: rest) :=
  decode_congr rest ho ((opcodeField_add_high hiw hn o.arity).trans ho) fun _ => modeDigit_add_high hiw hn o.arity

end

/-! ### The statements -/

/-- Settles O2: the fields of the encoder's word are the opcode and the digits it was made of (R61), so each format reads the
modes and raw values back. -/
theorem decodeInvertsEncode : Obligations.DecodeInvertsEncode := decode_encode_append

/-- Settles O3: the word of an encoding is always a cell value, so only the raw values decide. -/
theorem wellFormedIffEncodableInCells : Obligations.WellFormedIffEncodableInCells := by
  intro i
  refine ⟨?wf, encode_length i⟩
  case wf =>
    obtain ⟨iw, hiw, hcells⟩ := encode_eq_cons i
    rw [wf_iff_operands, hcells, List.forall_mem_cons, List.forall_mem_map]
    exact (and_iff_right hiw).symm

/-- Settles O4: a word has no opcode, an error among its operands, or decodes. -/
theorem wordDecodesExactlyWhenLegal : Obligations.WordDecodesExactlyWhenLegal := decode_eq_ok_iff

/-- Settles O5: the three findings exclude each other, so the error reported is the one D7 puts first. -/
theorem decodeReportsFirstError : Obligations.DecodeReportsFirstError := decode_eq_error_iff

/-- Settles O6: a truncated remainder has the sign of the word, and no opcode is below 1 (D4). -/
theorem negativeWordsAreInvalidOpcodes : Obligations.NegativeWordsAreInvalidOpcodes := by
  intro iw rest hneg
  have hfield : opcodeField iw = iw - 100 * Int.tdiv iw 100 := Int.tmod_def iw 100
  rw [← hfield]
  exact ⟨decode_of_no_opcode rest (no_opcode_of_neg hneg), opcodeField_of_neg hneg⟩

/-- Settles O7: such an addend leaves the opcode field and every mode digit of the format as they are. -/
theorem highDigitsAreNotExamined : Obligations.HighDigitsAreNotExamined := by
  intro iw n rest hiw hn
  refine ⟨?three, ?one, fun h => decode_add_high hiw hn (o := .halt) rest h⟩
  case three =>
    rintro (h | h)
    · exact decode_add_high hiw hn (o := .add) rest h
    · exact decode_add_high hiw hn (o := .mul) rest h
  case one =>
    rintro (h | h)
    · exact decode_add_high hiw hn (o := .input) rest h
    · exact decode_add_high hiw hn (o := .output) rest h

/-- Settles O1: each word's digits are those the spec lists. -/
theorem canonicalWordsDecode : Obligations.CanonicalWordsDecode := by
  unfold Obligations.CanonicalWordsDecode
  decide

end Sys2Proof.Proofs
end


section
/-! SUPPORT. The fetch and the step that follows from it: R72 of spec/30_encoding.md, R111 of spec/43_control.md, and the decode
faults of spec/60_exceptions.md. -/

open Sys2Proof Sys2Proof.Machine Sys2Proof.Claims

namespace Sys2Proof.Proofs

/-! ### The decoder's view of memory -/

theorem fetch_getElem? (s : State) (k : Nat) :
    (fetch s)[k]? = if k < 4 then s.mem.read ((s.pc + k : Nat) : Int) else none :=
  cellsFrom_getElem? s.mem 4 s.pc k

theorem cellsFrom_length (m : Memory) (n a : Nat) : (cellsFrom m n a).length = min n (m.len - a) := by
  induction n generalizing a with
  | zero => exact (Nat.zero_min _).symm
  | succ n ih =>
    rw [cellsFrom]
    split
    · next v hv =>
      have hvalid : m.valid a = true := by rw [← Memory.read_isSome, hv, Option.isSome_some]
      rw [Memory.valid_iff] at hvalid
      rw [List.length_cons, ih]
      omega
    · next hnone =>
      rw [Memory.read_eq_none, Bool.eq_false_iff, ne_eq, Memory.valid_iff] at hnone
      rw [List.length_nil]
      omega

theorem fetch_eq_nil_of_len_le {s : State} (h : s.mem.len ≤ s.pc) : fetch s = [] := by
  rw [fetch, ← List.length_eq_zero_iff, cellsFrom_length]
  omega

/-- Where there is a word at PC, the view is that word and the cells after it, as far as memory goes. -/
theorem fetch_eq_cons {s : State} {iw : Word} (h : s.mem.read s.pc = some iw) :
    ∃ rest, fetch s = iw :: rest ∧ rest.length = min 3 (s.mem.len - (s.pc + 1)) :=
  ⟨cellsFrom s.mem 3 (s.pc + 1), by simp [fetch, Config.longestInstr, cellsFrom, h], cellsFrom_length ..⟩

theorem fetch_cases (s : State) :
    (s.mem.len ≤ s.pc ∧ fetch s = []) ∨
    ∃ iw rest, s.mem.read s.pc = some iw ∧ fetch s = iw :: rest ∧ rest.length = min 3 (s.mem.len - (s.pc + 1)) := by
  cases hread : s.mem.read s.pc with
  | none =>
    have hlen : s.mem.len ≤ s.pc := by
      rw [Memory.read_eq_none, Bool.eq_false_iff, ne_eq, Memory.valid_iff] at hread
      omega
    exact .inl ⟨hlen, fetch_eq_nil_of_len_le hlen⟩
  | some iw =>
    obtain ⟨rest, hfetch, hlen⟩ := fetch_eq_cons hread
    exact .inr ⟨iw, rest, rfl, hfetch, hlen⟩

/-! ### What an enabled step does with the view -/

theorem step_of_decode {s : State} {i : Instr} (hrun : s.run = .running) (hi : decode (fetch s) = .ok i) :
    step s = exec i s := by
  simp only [step, hrun, hi]

theorem step_of_decode_error {s : State} {e : DecodeError} (hrun : s.run = .running) (he : decode (fetch s) = .error e) :
    step s = .next (takeFault (decodeFault s.pc e) s) :=
  step_eq_next.2 ⟨hrun, .inl ⟨e, he, rfl⟩⟩

/-- An instruction whose cells stand at PC is the one decoded there. -/
theorem decode_fetch_of_cells {s : State} {i : Instr}
    (h : ∀ (k : Nat) (c : Word), (encode i)[k]? = some c → s.mem.read ((s.pc + k : Nat) : Int) = some c) :
    decode (fetch s) = .ok i := by
  have hprefix : encode i <+: fetch s := by
    rw [List.prefix_iff_getElem?]
    intro k hk
    have hk4 : k < 4 := by
      rw [encode_length] at hk
      cases i <;> simp only [widthOf] at hk <;> omega
    rw [fetch_getElem?, if_pos hk4, h k _ (List.getElem?_eq_getElem hk)]
  obtain ⟨rest, hrest⟩ := hprefix
  rw [← hrest, decode_encode_append]

/-! ### Cells placed for the next step -/

theorem read_placeCells_before (vs : List Word) {m : Memory} {a b : Nat} (hb : b < a) (hlen : b < m.len) :
    (placeCells m a vs).read b = m.read b := by
  induction vs generalizing m a with
  | nil => rfl
  | cons v vs ih =>
    have hkeep : Memory.read ⟨max m.len (a + 1), storeCell m.cells a v⟩ b = m.read b := by
      simp [Memory.read, Memory.valid, lookup_storeCell, hlen, hb.ne]
    exact (ih (by omega) (lt_max_of_lt_left hlen)).trans hkeep

theorem read_placeCells (vs : List Word) (m : Memory) (a : Nat) {k : Nat} (hk : k < vs.length) :
    (placeCells m a vs).read ((a + k : Nat) : Int) = vs[k]? := by
  induction vs generalizing m a k with
  | nil => exact absurd hk (Nat.not_lt_zero k)
  | cons v vs ih =>
    cases k with
    | zero =>
      refine (read_placeCells_before vs (Nat.lt_succ_self a) (lt_max_of_lt_right (Nat.lt_succ_self a))).trans ?_
      simp [Memory.read, Memory.valid, lookup_storeCell]
    | succ k =>
      have haddr : a + (k + 1) = a + 1 + k := by omega
      rw [haddr, List.getElem?_cons_succ]
      exact ih _ _ (Nat.lt_of_succ_lt_succ hk)

theorem fetch_placeInstr (s : State) {cells : List Word} (h : cells.length = 4) : fetch (placeInstr s cells) = cells := by
  refine List.ext_getElem? fun k => ?_
  rw [fetch_getElem?]
  split
  · next hk => exact read_placeCells cells s.mem s.pc (by omega)
  · next hk => exact (List.getElem?_eq_none (by omega)).symm

theorem decode_tableCells {nbits w : Nat} {i : Instr} (h : decodeTableWord nbits w = some i) :
    decode (tableCells nbits w) = .ok i := by
  rw [decodeTableWord] at h
  cases hd : decode (tableCells nbits w) with
  | ok j =>
    rw [hd] at h
    exact congrArg _ (Option.some.inj h)
  | error e =>
    rw [hd] at h
    exact nomatch h

/-! ### The statements -/

/-- Settles O21: in Running the step adds nothing to the case analysis of `exec`. -/
theorem stepExecutesDecodedInstruction : Obligations.StepExecutesDecodedInstruction :=
  fun _ _ => step_of_decode

/-- Settles O22: the view begins with the encoding, and decoding inverts it whatever follows. -/
theorem stepExecutesInstructionInMemory : Obligations.StepExecutesInstructionInMemory :=
  fun _ _ hrun hcells => step_of_decode hrun (decode_fetch_of_cells hcells)

/-- Settles O23: each hypothesis names one error of the decoder, and taking its fault writes FAULT and RUN alone. -/
theorem stepTakesDecodeFaults : Obligations.StepTakesDecodeFaults := by
  intro s hrun
  refine ⟨fun hempty => ?noWord, fun iw hread => ?word⟩
  case noWord =>
    have hdecode : decode (fetch s) = .error (.missingCell 0) := by rw [fetch_eq_nil_of_len_le (by omega)]; rfl
    have hrecord : decodeFault s.pc (.missingCell 0) = .outOfBounds s.pc := congrArg FaultRecord.outOfBounds (add_zero _)
    exact ⟨_, step_of_decode_error hrun hdecode, by rw [hrecord]; rfl⟩
  case word =>
    obtain ⟨rest, hfetch, hlen⟩ := fetch_eq_cons hread
    have takes {e : DecodeError} (he : decode (iw :: rest) = .error e) :
        step s = .next (takeFault (decodeFault s.pc e) s) := step_of_decode_error hrun (hfetch ▸ he)
    refine ⟨fun hnone => ?opcode, fun o ho => ⟨fun k hk hne0 hne1 hbelow => ?mode, fun hmodes k hk hend => ?cell⟩⟩
    case opcode =>
      exact ⟨_, takes (decode_of_no_opcode rest hnone), rfl⟩
    case mode =>
      have herror : OperandsError o.arity iw rest (.invalidMode (modeDigit k iw)) :=
        .inl ⟨k, hk, hne0, hne1, hbelow, rfl⟩
      exact ⟨_, takes (decode_of_operandsError ho herror), rfl⟩
    case cell =>
      have harity := arity_le_three o
      obtain rfl : rest.length = k := by omega
      have herror : OperandsError o.arity iw rest (.missingCell (rest.length + 1)) := .inr ⟨hmodes, hk, rfl⟩
      have haddr : ((s.pc : Int) + (rest.length + 1 : Nat)) = ((s.pc + 1 + rest.length : Nat) : Int) := by omega
      rw [← haddr]
      exact ⟨_, takes (decode_of_operandsError ho herror), rfl⟩

/-- Settles O51: after the placing, the view at PC is the table word's cells. -/
theorem placedWordRunsNext : Obligations.PlacedWordRunsNext := by
  intro s nbits w i hword
  have hfetch : fetch (s.withFetchWord nbits w) = tableCells nbits w := fetch_placeInstr s (by simp [tableCells])
  exact step_of_decode rfl (by rw [hfetch, decode_tableCells hword])

end Sys2Proof.Proofs
end


section
/-! SUPPORT. The memory controller's write and the instructions' completions and faults: R43 of spec/20_memory.md, R90 and R91 of
spec/41_arithmetic.md, R100 of spec/42_io.md, R110 of spec/43_control.md. -/

open Sys2Proof Sys2Proof.Machine Sys2Proof.Claims

namespace Sys2Proof.Proofs

/-- The faults of ADD and MUL from the one order in which `arithmetic` judges them; `hraises` says that the instruction raises
what `arithmetic` does. -/
theorem arithmeticFaults_of_raises {mk : Param → Param → Param → Instr} {op : Word → Word → Int}
    (hraises : ∀ {s lhs rhs dest r}, arithmetic (narrow Config.W) op lhs rhs dest s = .error r → Raises s (mk lhs rhs dest) r) :
    ArithmeticFaults mk op := by
  intro s lhs rhs dest
  have takes {r : FaultRecord} (h : arithmetic (narrow Config.W) op lhs rhs dest s = .error r) :
      exec (mk lhs rhs dest) s = .next (takeFault r s) := (hraises h).exec_eq
  refine ⟨fun hlhs => ?lhs, fun a ha hrhs => ?rhs, fun a b ha hb hover => ?overflow, fun a b ha hb hlo hhi hdest => ?dest⟩
  case lhs => exact ⟨_, takes (arithmetic_eq_error.2 (.inl (resolve_error_of_sourceMissing hlhs))), rfl⟩
  case rhs =>
    have hfault := resolve_error_of_sourceMissing hrhs
    exact ⟨_, takes (arithmetic_eq_error.2 (.inr (.inl ⟨a, resolve_eq_ok_iff_sourceIs.2 ha, hfault⟩))), rfl⟩
  case overflow =>
    have hnarrow : narrow Config.W (op a b) = none := by
      rw [narrow_eq_none, Bool.eq_false_iff, ne_eq, isCellValue_W_iff]
      omega
    exact ⟨_, takes (arithmetic_eq_error.2 (.inr (.inr (.inl
      ⟨a, b, resolve_eq_ok_iff_sourceIs.2 ha, resolve_eq_ok_iff_sourceIs.2 hb, hnarrow, rfl⟩)))), rfl⟩
  case dest =>
    have hnarrow := narrow_eq_some.2 ⟨isCellValue_W_iff.2 ⟨hlo, hhi⟩, rfl⟩
    exact ⟨_, takes (arithmetic_eq_error.2 (.inr (.inr (.inr ⟨a, b, _, resolve_eq_ok_iff_sourceIs.2 ha,
      resolve_eq_ok_iff_sourceIs.2 hb, hnarrow, valid_eq_false_of_not_isCell hdest, rfl⟩)))), rfl⟩

/-! ### The statements -/

/-- Settles O10: the write gives the state a new memory and nothing else, in which one cell reads differently. -/
theorem memWriteChangesOneCell : Obligations.MemWriteChangesOneCell := by
  intro s a v
  refine ⟨fun hcell => ?cell, memWrite_error_of_not_isCell v⟩
  case cell =>
    obtain ⟨m, hm⟩ := write_of_isCell v hcell
    exact ⟨s.setMem m, memWrite_eq_ok.2 ⟨m, hm, rfl⟩, storesOnly_of_write hm, rfl, rfl, rfl, rfl, rfl⟩

/-- Settles O15: ADD and MUL share the order in which the checks are made (D12). -/
theorem addAndMulFaultInOrder : Obligations.AddAndMulFaultInOrder :=
  ⟨arithmeticFaults_of_raises (op := exactSum) .add, arithmeticFaults_of_raises (op := exactProduct) .mul⟩

/-- Settles O16: IN's effect is one store and the shorter queue (R100), and the advance touches neither. -/
theorem inStoresQueueHead : Obligations.InStoresQueueHead := by
  intro s dest v rest hq hcell
  obtain ⟨m, hm⟩ := write_of_isCell v hcell
  refine ⟨_, (Effect.input hq hm).exec_eq, ?store, ?inq, ?out, ?fault, ?run⟩
  case store => exact storesOnly_of_write (by rw [advance_mem, State.setMem_mem, hm])
  case inq => rw [advance_inq, State.setMem_inq, State.setInq_inq]
  case out => rw [advance_out, State.setMem_out, State.setInq_out]
  case fault => rw [advance_fault, State.setMem_fault, State.setInq_fault]
  case run => exact advance_run_eq_or_halted _ ((s.setInq rest).setMem m)

/-- Settles O8: what is done with a destination is done at its raw value (R84). -/
theorem destinationModeHasNoEffect : Obligations.DestinationModeHasNoEffect :=
  fun _ _ _ _ _ _ => ⟨rfl, rfl, rfl⟩

/-- Settles O18: with input there, IN's only fault is its destination's, judged before the head is removed (D13). -/
theorem inWithBadDestinationKeepsQueue : Obligations.InWithBadDestinationKeepsQueue := by
  intro s dest hq hdest
  have heffect : inputEffect dest s = .error (.outOfBounds dest.raw) :=
    inputEffect_eq_error.2 (.inr ⟨hq, valid_eq_false_of_not_isCell hdest, rfl⟩)
  exact ⟨_, (Raises.input heffect).exec_eq, rfl⟩

/-- Settles O20: HALT's meaning is the one update of RUN, and its words are told by their last two digits alone. -/
theorem haltSetsRunOnly : Obligations.HaltSetsRunOnly :=
  ⟨fun _ => rfl, fun _ rest => decode_of_halt_word rest⟩

end Sys2Proof.Proofs
end


section
/-! SUPPORT. What a step can leave behind: its successors, the word it ends on, the fault it records and the cells it stores,
R112 to R120 of spec/43_control.md, R137 and R138 of spec/60_exceptions.md, R50 of spec/20_memory.md. -/

open Sys2Proof Sys2Proof.Machine Sys2Proof.Claims

namespace Sys2Proof.Proofs

/-! ### The sequencer after an effect -/

/-- R112, R113: PC moves on by the width and the run goes on, or the run halts where it is. -/
theorem advance_of_effect_cases {s u : State} {i : Instr} (h : Effect s i u) :
    (s.pc + widthOf i < s.mem.len ∧ (advance i.width u).pc = s.pc + widthOf i ∧ (advance i.width u).run = s.run) ∨
    (s.mem.len ≤ s.pc + widthOf i ∧ (advance i.width u).pc = s.pc ∧ (advance i.width u).run = .halted) := by
  rcases lt_or_ge (s.pc + widthOf i) s.mem.len with hlt | hge
  · exact .inl ⟨hlt, advance_of_effect h hlt⟩
  · have hend : u.mem.len ≤ u.pc + i.width := by rwa [effect_len h, effect_pc h, width_eq_widthOf]
    exact .inr ⟨hge, by rw [advance_pc, if_pos hend, effect_pc h], by rw [advance_run, if_pos hend]⟩

theorem advance_run_ne_faulted {s u : State} {i : Instr} (h : Effect s i u) (hrun : s.run = .running) :
    (advance i.width u).run ≠ .faulted := by
  obtain ⟨-, -, hr⟩ | ⟨-, -, hr⟩ := advance_of_effect_cases h <;> simp [hr, hrun]

theorem effect_fault {s u : State} {i : Instr} (h : Effect s i u) : u.fault = s.fault := by
  cases h with
  | add => rfl
  | mul => rfl
  | input => rfl
  | output => rfl

theorem running_of_step {s t : State} (h : step s = .next t) : s.run = .running :=
  step_next_iff_running.1 ⟨t, h⟩

/-- R63: the instructions that have an effect are 2 or 4 cells wide. -/
theorem effect_widthOf {s u : State} {i : Instr} (h : Effect s i u) : widthOf i = 2 ∨ widthOf i = 4 := by
  cases h with
  | add => exact .inr rfl
  | mul => exact .inr rfl
  | input => exact .inl rfl
  | output => exact .inl rfl

/-- R112, R113, R138: the three successors of the instruction at PC. -/
theorem step_successors {s t : State} (h : step s = .next t) :
    (t.run = .running ∧ ∃ i, decode (fetch s) = .ok i ∧ 2 ≤ widthOf i ∧ t.pc = s.pc + widthOf i ∧ t.pc < s.mem.len) ∨
    (t.run = .halted ∧ t.pc = s.pc ∧
      ∃ i, decode (fetch s) = .ok i ∧ (i = .halt ∨ s.mem.len ≤ s.pc + widthOf i)) ∨
    (t.run = .faulted ∧ t.pc = s.pc) := by
  obtain ⟨r, rfl⟩ | ⟨hhalt, rfl⟩ | ⟨i, u, hi, hu, rfl⟩ := step_cases h
  · exact .inr (.inr ⟨rfl, rfl⟩)
  · exact .inr (.inl ⟨rfl, rfl, .halt, hhalt, .inl rfl⟩)
  · obtain ⟨hlt, hpc, hrun⟩ | ⟨hge, hpc, hrun⟩ := advance_of_effect_cases hu
    · have hwidth : 2 ≤ widthOf i := by obtain h | h := effect_widthOf hu <;> omega
      exact .inl ⟨hrun.trans (running_of_step h), i, hi, hwidth, hpc, hpc ▸ hlt⟩
    · exact .inr (.inl ⟨hrun, hpc, i, hi, .inr hge⟩)

/-! ### The word a run ends on -/

theorem opcode_number_eq_99_iff (i : Instr) : i.opcode.number = 99 ↔ i = .halt := by
  cases i <;> simp [Instr.opcode, Opcode.number]

theorem endedOnHaltWord_iff (s : State) :
    endedOnHaltWord s = true ↔ s.run = .halted ∧ (s.mem.read s.pc).map opcodeField = some 99 := by
  rw [endedOnHaltWord, Bool.and_eq_true, decide_eq_true_iff, decide_eq_true_iff]

theorem opcodeField_at_pc {s : State} {i : Instr} (h : decode (fetch s) = .ok i) :
    (s.mem.read s.pc).map opcodeField = some i.opcode.number := by
  obtain ⟨-, hnil⟩ | ⟨iw, rest, hread, hcons, -⟩ := fetch_cases s
  · rw [hnil] at h
    exact nomatch h
  · rw [hcons] at h
    obtain ⟨hfield, -⟩ := decode_eq_ok h
    rw [hread, Option.map_some, hfield]

/-! ### The fault a step takes -/

theorem decodeFault_kind_ne_none (pc : Nat) (e : DecodeError) : (decodeFault pc e).kind ≠ .none := by
  cases e <;> exact FaultKind.noConfusion

theorem not_isCell_of_valid_eq_false {s : State} {a : Int} (h : s.mem.valid a = false) : ¬ IsCell s a :=
  fun hcell => Bool.eq_false_iff.1 h ((s.mem.valid_iff a).2 hcell)

theorem resolve_error_cases {s : State} {p : Param} {r : FaultRecord} (h : resolve s p = .error r) :
    ¬ IsCell s p.raw ∧ r = .outOfBounds p.raw := by
  obtain ⟨-, hread, rfl⟩ := resolve_eq_error.1 h
  exact ⟨not_isCell_of_valid_eq_false ((s.mem.read_eq_none _).1 hread), rfl⟩

/-- The record of a fault that an execution raises: an operand's raw value that is no cell's address, an empty queue, or an
overflow at PC. -/
def RaisedRecord (s : State) (i : Instr) (r : FaultRecord) : Prop :=
  (∃ p ∈ operands i, ¬ IsCell s p.raw ∧ r = .outOfBounds p.raw) ∨ r = .inputExhausted ∨ r = .arithmeticOverflow s.pc

theorem raisedRecord_of_arithmetic {s : State} {i : Instr} {op : Word → Word → Int} {lhs rhs dest : Param} {r : FaultRecord}
    (hi : operands i = [lhs, rhs, dest]) (h : arithmetic (narrow Config.W) op lhs rhs dest s = .error r) :
    RaisedRecord s i r := by
  rw [RaisedRecord, hi]
  obtain h | ⟨-, -, h⟩ | ⟨-, -, -, -, -, rfl⟩ | ⟨-, -, -, -, -, -, hvalid, rfl⟩ := arithmetic_eq_error.1 h
  · exact .inl ⟨lhs, by simp, resolve_error_cases h⟩
  · exact .inl ⟨rhs, by simp, resolve_error_cases h⟩
  · exact .inr (.inr rfl)
  · exact .inl ⟨dest, by simp, not_isCell_of_valid_eq_false hvalid, rfl⟩

theorem raisedRecord_of_raises {s : State} {i : Instr} {r : FaultRecord} (h : Raises s i r) : RaisedRecord s i r := by
  cases h with
  | add h => exact raisedRecord_of_arithmetic rfl h
  | mul h => exact raisedRecord_of_arithmetic rfl h
  | input h =>
    obtain ⟨-, rfl⟩ | ⟨-, hvalid, rfl⟩ := inputEffect_eq_error.1 h
    · exact .inr (.inl rfl)
    · exact .inl ⟨_, List.mem_singleton_self _, not_isCell_of_valid_eq_false hvalid, rfl⟩
  | output h => exact .inl ⟨_, List.mem_singleton_self _, resolve_error_cases h⟩

/-- The record of the fault that a step takes: the decode error's, or one that the decoded instruction raises. -/
def StepFault (s : State) (r : FaultRecord) : Prop :=
  (∃ e, decode (fetch s) = .error e ∧ r = decodeFault s.pc e) ∨ ∃ i, decode (fetch s) = .ok i ∧ RaisedRecord s i r

theorem StepFault.kind_ne_none {s : State} {r : FaultRecord} (h : StepFault s r) : r.kind ≠ .none := by
  obtain ⟨e, -, rfl⟩ | ⟨i, -, ⟨p, -, -, rfl⟩ | rfl | rfl⟩ := h
  · exact decodeFault_kind_ne_none s.pc e
  all_goals exact FaultKind.noConfusion

/-- R137, R138: a step takes a fault in the state it began with, or ends outside Faulted with FAULT as it was. -/
theorem step_fault_cases {s t : State} (h : step s = .next t) :
    (∃ r, StepFault s r ∧ t = takeFault r s) ∨ (t.run ≠ .faulted ∧ t.fault = s.fault) := by
  obtain ⟨hrun, ⟨e, he, rfl⟩ | ⟨i, hi, hexec⟩⟩ := step_eq_next.1 h
  · exact .inl ⟨_, .inl ⟨e, he, rfl⟩, rfl⟩
  · obtain ⟨-, he⟩ | ⟨r, hr, he⟩ | ⟨u, hu, he⟩ := exec_cases i s <;> cases hexec.symm.trans he
    · exact .inr ⟨RunState.noConfusion, rfl⟩
    · exact .inl ⟨r, .inr ⟨i, hi, raisedRecord_of_raises hr⟩, rfl⟩
    · exact .inr ⟨advance_run_ne_faulted hu hrun, by rw [advance_fault, effect_fault hu]⟩

/-! ### The cells an effect stores -/

/-- R90: ADD's effect is the sum of its sources in the destination cell. -/
theorem effect_add {s u : State} {lhs rhs dest : Param} (h : Effect s (.add lhs rhs dest) u) :
    ∃ a b, SourceIs s lhs a ∧ SourceIs s rhs b ∧ u.mem.read (destAddress dest) = some (a + b) := by
  cases h with
  | add ha hb _ hm =>
    obtain ⟨-, hstored, -⟩ := storesOnly_of_write (t := s.setMem _) hm
    exact ⟨_, _, resolve_eq_ok_iff_sourceIs.1 ha, resolve_eq_ok_iff_sourceIs.1 hb, hstored⟩

/-- R91: MUL's effect is the product of its sources in the destination cell. -/
theorem effect_mul {s u : State} {lhs rhs dest : Param} (h : Effect s (.mul lhs rhs dest) u) :
    ∃ a b, SourceIs s lhs a ∧ SourceIs s rhs b ∧ u.mem.read (destAddress dest) = some (a * b) := by
  cases h with
  | mul ha hb _ hm =>
    obtain ⟨-, hstored, -⟩ := storesOnly_of_write (t := s.setMem _) hm
    exact ⟨_, _, resolve_eq_ok_iff_sourceIs.1 ha, resolve_eq_ok_iff_sourceIs.1 hb, hstored⟩

/-- The instruction stores at address a: ADD, MUL or IN with that destination. -/
def StoresAt (i : Instr) (a : Int) : Prop :=
  (∃ lhs rhs dest, i = .add lhs rhs dest ∧ destAddress dest = a) ∨
  (∃ lhs rhs dest, i = .mul lhs rhs dest ∧ destAddress dest = a) ∨
  (∃ dest, i = .input dest ∧ destAddress dest = a)

theorem eq_of_read_ne {m m' : Memory} {a b : Int} {v : Word} (h : m.write b v = some m') (hne : m'.read a ≠ m.read a) :
    b = a := by
  obtain ⟨-, -, hread⟩ := Memory.write_eq_some h
  by_contra hba
  exact hne (by rw [hread, if_neg (Ne.symm hba)])

theorem effect_storesAt {s u : State} {i : Instr} {a : Int} (h : Effect s i u) (hne : u.mem.read a ≠ s.mem.read a) :
    StoresAt i a := by
  cases h with
  | add _ _ _ hm => exact .inl ⟨_, _, _, rfl, eq_of_read_ne hm hne⟩
  | mul _ _ _ hm => exact .inr (.inl ⟨_, _, _, rfl, eq_of_read_ne hm hne⟩)
  | input _ hm => exact .inr (.inr ⟨_, rfl, eq_of_read_ne hm hne⟩)
  | output => exact absurd rfl hne

/-- R45, R50: what an effect left in a cell of the next instruction is in the next fetch's view. -/
theorem fetch_of_read_advance {u : State} {w k : Nat} {v : Word} (hk : k < 4)
    (h : u.mem.read (((advance w u).pc + k : Nat) : Int) = some v) : (fetch (advance w u))[k]? = some v := by
  rw [fetch_getElem?, if_pos hk, advance_mem, h]

/-! ### The statements -/

/-- Settles O26: the effect stands in the state that the sequencer halts (D15). -/
theorem defensiveHaltKeepsPcAndEffect : Obligations.DefensiveHaltKeepsPcAndEffect := by
  intro s t i hrunning hexec hrun hne hge
  obtain ⟨u, hu, rfl⟩ := effect_of_exec hexec hne hrun
  obtain ⟨hlt, -⟩ | ⟨-, hpc, hhalted⟩ := advance_of_effect_cases hu
  · exact absurd hlt (not_lt.2 hge)
  · rw [advance_out, advance_inq, advance_mem]
    refine ⟨hhalted, hpc, ?output, ?input, ?add, ?mul⟩
    case output =>
      rintro src rfl
      exact effect_output hu
    case input =>
      rintro dest rfl
      exact effect_input hu
    case add =>
      rintro lhs rhs dest rfl
      exact effect_add hu
    case mul =>
      rintro lhs rhs dest rfl
      exact effect_mul hu

/-- Settles O27: every width is positive, so of the three successors the one that runs on lies beyond PC. -/
theorem onlySuccessorsAreNextHaltedFaulted : Obligations.OnlySuccessorsAreNextHaltedFaulted := by
  intro s t h
  obtain ⟨hrun, i, hi, hwidth, hpc, -⟩ | ⟨hrun, hpc, -⟩ | hfaulted := step_successors h
  · exact .inl ⟨hrun, by omega, i, hi, hpc⟩
  · exact .inr (.inl ⟨hrun, hpc⟩)
  · exact .inr (.inr hfaulted)

/-- Settles O28: of the three successors only the second is Halted. -/
theorem haltedOnlyByHaltOrDefensiveHalt : Obligations.HaltedOnlyByHaltOrDefensiveHalt := by
  intro s t h hhalted
  obtain ⟨hrun, -⟩ | ⟨-, -, hcause⟩ | ⟨hrun, -⟩ := step_successors h
  · exact nomatch hhalted.symm.trans hrun
  · exact hcause
  · exact nomatch hhalted.symm.trans hrun

/-- Settles O29: PC and, by hypothesis, its word are as they were at the fetch, and 99 is HALT's opcode alone. -/
theorem haltWordTellsHaltFromDefensiveHalt : Obligations.HaltWordTellsHaltFromDefensiveHalt := by
  intro s t i h hhalted hi hkept
  obtain ⟨hrun, -⟩ | ⟨-, hpc, -⟩ | ⟨hrun, -⟩ := step_successors h
  · exact nomatch hhalted.symm.trans hrun
  · rw [endedOnHaltWord_iff, hpc, hkept, opcodeField_at_pc hi, Option.some.injEq, opcode_number_eq_99_iff]
    exact and_iff_right hhalted
  · exact nomatch hhalted.symm.trans hrun

/-- Settles O30: a step that ends Faulted has taken a fault in the state it began with (D14). -/
theorem faultEntryWritesFaultAndRun : Obligations.FaultEntryWritesFaultAndRun := by
  refine ⟨fun r s => rfl, fun s t h hfaulted => ?step⟩
  case step =>
    obtain ⟨r, -, rfl⟩ | ⟨hrun, -⟩ := step_fault_cases h
    · exact ⟨r, rfl⟩
    · exact absurd hfaulted hrun

/-- Settles O31: a taken fault has one of the five kinds (R130), and a step without one leaves FAULT alone. -/
theorem faultsArePreciseAndRecordedOnce : Obligations.FaultsArePreciseAndRecordedOnce := by
  intro s t h
  obtain ⟨r, hr, rfl⟩ | ⟨hrun, hfault⟩ := step_fault_cases h
  · exact ⟨fun _ => ⟨rfl, rfl, rfl, rfl, hr.kind_ne_none⟩, fun hrun => absurd (takeFault_run r s) hrun⟩
  · exact ⟨fun hfaulted => absurd hfaulted hrun, fun _ => hfault⟩

/-- Settles O34: a cell that reads differently was written by the effect, and each effect writes one cell at most. -/
theorem onlyDestinationCellsChange : Obligations.OnlyDestinationCellsChange := by
  intro s t a h hne
  obtain ⟨r, rfl⟩ | ⟨-, rfl⟩ | ⟨i, u, hi, hu, rfl⟩ := step_cases h
  · exact absurd rfl hne
  · exact absurd rfl hne
  · rw [advance_mem] at hne
    exact ⟨i, hi, effect_storesAt hu hne⟩

/-- Settles O35: the sequencer leaves the stored cell as the effect left it, and the next fetch views it. -/
theorem storeIsSeenByNextFetch : Obligations.StoreIsSeenByNextFetch := by
  intro s t lhs rhs dest k hrunning hrun hk haddr
  have hne : t.run ≠ .faulted := by simp [hrun]
  refine ⟨fun h => ?add, fun h => ?mul, fun h => ?input⟩
  case add =>
    obtain ⟨u, hu, rfl⟩ := effect_of_exec h (by simp) hne
    obtain ⟨a, b, ha, hb, hread⟩ := effect_add hu
    exact ⟨a, b, ha, hb, fetch_of_read_advance hk (haddr ▸ hread)⟩
  case mul =>
    obtain ⟨u, hu, rfl⟩ := effect_of_exec h (by simp) hne
    obtain ⟨a, b, ha, hb, hread⟩ := effect_mul hu
    exact ⟨a, b, ha, hb, fetch_of_read_advance hk (haddr ▸ hread)⟩
  case input =>
    obtain ⟨u, hu, rfl⟩ := effect_of_exec h (by simp) hne
    obtain ⟨v, hq, hread⟩ := effect_input hu
    exact ⟨v, by rw [hq, List.head?_cons], fetch_of_read_advance hk (haddr ▸ hread)⟩

end Sys2Proof.Proofs
end


section
/-! SUPPORT. What no step depends on: the output log, and input behind the head of the queue, 10_state.md section 6 and
42_io.md section 2. -/

open Sys2Proof Sys2Proof.Machine Sys2Proof.Claims

namespace Sys2Proof.Proofs

/-- s with more input behind its queue and another output log. -/
def rechannel (more log : List Word) (s : State) : State := { s with inq := s.inq ++ more, out := log }

section
variable (more log : List Word)

theorem fetch_rechannel (s : State) : fetch (rechannel more log s) = fetch s := rfl

theorem resolve_rechannel (s : State) (p : Param) : resolve (rechannel more log s) p = resolve s p := rfl

theorem advance_rechannel (w : Nat) (s : State) : advance w (rechannel more log s) = rechannel more log (advance w s) :=
  (apply_ite (rechannel more log) (s.mem.len ≤ s.pc + w) (s.setRun .halted) (s.setPc (s.pc + w))).symm

theorem takeFault_rechannel (r : FaultRecord) (s : State) :
    takeFault r (rechannel more log s) = rechannel more log (takeFault r s) := rfl

theorem arithmetic_error_rechannel {check : Int → Option Word} {op : Word → Word → Int} {lhs rhs dest : Param} {s : State}
    {r : FaultRecord} (h : arithmetic check op lhs rhs dest s = .error r) :
    arithmetic check op lhs rhs dest (rechannel more log s) = .error r := by
  have hcause := arithmetic_eq_error.1 h
  exact arithmetic_eq_error.2 hcause

end

section
variable {s : State} (more : List Word)

/-- An effect comes about over the other channels just so, with the same values emitted. -/
theorem effect_rechannel {u : State} {i : Instr} (h : Effect s i u) :
    ∃ emitted, u.out = s.out ++ emitted ∧
      ∀ log, Effect (rechannel more log s) i (rechannel more (log ++ emitted) u) := by
  have silent : s.out = s.out ++ [] := (List.append_nil _).symm
  cases h with
  | add ha hb hv hm => exact ⟨[], silent, fun log => by
      rw [List.append_nil]
      exact .add ((resolve_rechannel ..).trans ha) ((resolve_rechannel ..).trans hb) hv hm⟩
  | mul ha hb hv hm => exact ⟨[], silent, fun log => by
      rw [List.append_nil]
      exact .mul ((resolve_rechannel ..).trans ha) ((resolve_rechannel ..).trans hb) hv hm⟩
  | input hq hm =>
    refine ⟨[], silent, fun log => ?_⟩
    rw [List.append_nil]
    exact .input (by rw [rechannel, hq, List.cons_append]; rfl) hm
  | output hv => exact ⟨[_], rfl, fun log => .output ((resolve_rechannel ..).trans hv)⟩

/-- With input there, or none behind it, the same faults are raised. -/
theorem raises_rechannel {i : Instr} {r : FaultRecord} (hq : s.inq ≠ [] ∨ more = []) (log : List Word) (h : Raises s i r) :
    Raises (rechannel more log s) i r := by
  cases h with
  | add h => exact .add (arithmetic_error_rechannel more log h)
  | mul h => exact .mul (arithmetic_error_rechannel more log h)
  | input h =>
    refine .input (inputEffect_eq_error.2 ?_)
    obtain ⟨hempty, rfl⟩ | ⟨hne, hvalid, rfl⟩ := inputEffect_eq_error.1 h
    · obtain hne | rfl := hq
      · exact absurd hempty hne
      · exact .inl ⟨by rw [rechannel, hempty, List.append_nil], rfl⟩
    · exact .inr ⟨List.append_ne_nil_of_left_ne_nil hne more, hvalid, rfl⟩
  | output h => exact .output ((resolve_rechannel ..).trans h)

theorem step_rechannel {t : State} (hq : s.inq ≠ [] ∨ more = []) (h : step s = .next t) :
    ∃ emitted, t.out = s.out ++ emitted ∧
      ∀ log, step (rechannel more log s) = .next (rechannel more (log ++ emitted) t) := by
  have silent : s.out = s.out ++ [] := (List.append_nil _).symm
  obtain ⟨hrun, ⟨e, he, rfl⟩ | ⟨i, hi, hexec⟩⟩ := step_eq_next.1 h
  · refine ⟨[], silent, fun log => ?_⟩
    have he' : decode (fetch (rechannel more log s)) = .error e := by rw [fetch_rechannel, he]
    rw [List.append_nil, ← takeFault_rechannel]
    exact step_of_decode_error hrun he'
  · have hstep (log : List Word) : step (rechannel more log s) = exec i (rechannel more log s) :=
      step_of_decode hrun (by rw [fetch_rechannel, hi])
    obtain ⟨rfl, he⟩ | ⟨r, hr, he⟩ | ⟨u, hu, he⟩ := exec_cases i s <;> cases hexec.symm.trans he
    · exact ⟨[], silent, fun log => by rw [List.append_nil, hstep]; rfl⟩
    · refine ⟨[], silent, fun log => ?_⟩
      rw [List.append_nil, hstep, (raises_rechannel more hq log hr).exec_eq, takeFault_rechannel]
    · obtain ⟨emitted, hout, heffect⟩ := effect_rechannel more hu
      refine ⟨emitted, by rw [advance_out, hout], fun log => ?_⟩
      rw [hstep, (heffect log).exec_eq, advance_rechannel]

end

/-! ### The statements -/

/-- Settles O38: another log with no more input is a change of the channels that every step carries through. -/
theorem outputLogIsNeverRead : Obligations.OutputLogIsNeverRead := by
  intro s t log h
  obtain ⟨emitted, hout, hstep⟩ := step_rechannel [] (.inr rfl) h
  refine ⟨emitted, hout, ?_⟩
  simpa only [rechannel, List.append_nil] using hstep log

/-- Settles O39: more input behind a queue that is not empty, over the same log, is a change of the channels that every step
carries through. -/
theorem inputBehindTheHeadIsNotSeen : Obligations.InputBehindTheHeadIsNotSeen := by
  intro s t more hq h
  obtain ⟨emitted, hout, hstep⟩ := step_rechannel more (.inl hq) h
  simpa only [rechannel, hout] using hstep s.out

end Sys2Proof.Proofs
end


section
/-! SUPPORT. The launch, the reset state and the host's codes: R160 to R164 of spec/70_reset_and_hazards.md, R33 of
spec/10_state.md, D17 and D22 of spec/92_eei_decisions.md. -/

open Sys2Proof Sys2Proof.Machine Sys2Proof.Claims

namespace Sys2Proof.Proofs

theorem maxLen_W : Config.maxLen Config.W = 2 ^ 63 - 4 := by decide

/-- R164: the launch premises in the spec's numbers. -/
theorem launchable_iff (image inputs : List Word) : launchable Config.W image inputs = true ↔
    (∀ v : Int, v ∈ image ++ inputs → -2 ^ 63 ≤ v ∧ v ≤ 2 ^ 63 - 1) ∧ (image.length : Int) ≤ 2 ^ 63 - 4 := by
  rw [launchable, ← List.all_append, Bool.and_eq_true, List.all_eq_true, decide_eq_true_iff, maxLen_W]
  simp only [isCellValue_W_iff]

theorem relaunch_of_running {s : State} (h : s.run = .running) (image inputs : List Word) :
    relaunch s image inputs = none := by
  rw [relaunch, h]

theorem relaunch_of_ended {s : State} (h : s.run ≠ .running) (image inputs : List Word) :
    relaunch s image inputs = launch image inputs := by
  cases hrun : s.run with
  | running => exact absurd hrun h
  | halted => rw [relaunch, hrun]
  | faulted => rw [relaunch, hrun]

theorem launch_empty : launch [] [] = some State.reset := rfl

/-! ### The statements -/

/-- Settles O46: R164's premises decide, and R160 gives every element of state. -/
theorem launchLoadsImageAndInputs : Obligations.LaunchLoadsImageAndInputs := by
  intro image inputs
  rw [← launchable_iff]
  refine ⟨fun hok => ?accepted, fun hnot => ?refused⟩
  case accepted =>
    exact ⟨_, launch_eq_some.2 ⟨hok, rfl⟩, rfl, Memory.read_ofImage image, rfl, rfl, rfl, rfl, rfl⟩
  case refused =>
    refine Option.eq_none_iff_forall_ne_some.2 fun s hs => ?_
    obtain ⟨hok, -⟩ := launch_eq_some.1 hs
    exact hnot hok

/-- Settles O47: the empty image meets R164, and its launch is the reset state field by field. -/
theorem resetIsTheEmptyLaunch : Obligations.ResetIsTheEmptyLaunch :=
  ⟨launch_empty, rfl, rfl, rfl, rfl, rfl, rfl⟩

/-- Settles O48: of the three values of RUN only Running refuses a launch, and no answer mentions the old state. -/
theorem relaunchOnlyAfterTheEnd : Obligations.RelaunchOnlyAfterTheEnd :=
  fun _ image inputs => ⟨fun h => relaunch_of_running h image inputs, fun h => relaunch_of_ended h image inputs⟩

/-- Settles O50: the codes are those of D17. -/
theorem statusCodesAreDistinct : Obligations.StatusCodesAreDistinct := by
  refine ⟨⟨rfl, rfl, rfl⟩, fun r => ?never3, rfl⟩
  case never3 => cases r <;> decide

end Sys2Proof.Proofs
end


section
/-! SUPPORT. The invariants of every launched run: 10_state.md section 8 and R130's payloads of spec/60_exceptions.md. Each part of
a step keeps them, and a launch gives them. -/

open Sys2Proof Sys2Proof.Machine Sys2Proof.Claims

namespace Sys2Proof.Proofs

/-! ### The values that a state with the invariants offers -/

section
variable {s : State} (hs : s.Inv)
include hs

theorem kind_none_of_running (hrun : s.run = .running) : s.fault.kind = .none :=
  hs.faultIffFaulted.2 (by simp [hrun])

/-- R6: an index up to LEN is a cell value. -/
theorem isCellValue_of_le_len {a : Nat} (ha : a ≤ max s.mem.len 1) : isCellValue Config.W (a : Int) = true := by
  have hlen := hs.lenBound
  rw [maxLen_W] at hlen
  exact isCellValue_W_iff.2 ⟨by omega, by omega⟩

theorem isCellValue_of_mem_fetch {v : Word} (hv : v ∈ fetch s) : isCellValue Config.W v = true := by
  obtain ⟨k, hk⟩ := List.mem_iff_getElem?.1 hv
  rw [fetch_getElem?] at hk
  split at hk
  · exact hs.cellsFit _ v hk
  · exact nomatch hk

/-- R65: the raw values of a decoded instruction stood in cells. -/
theorem isCellValue_operand {i : Instr} (hi : decode (fetch s) = .ok i) {p : Param} (hp : p ∈ operands i) :
    isCellValue Config.W p.raw = true := by
  refine isCellValue_of_mem_fetch hs ?_
  obtain ⟨-, hnil⟩ | ⟨iw, rest, -, hcons, -⟩ := fetch_cases s
  · rw [hnil] at hi
    exact nomatch hi
  · rw [hcons] at hi ⊢
    obtain ⟨-, -, -, hraws⟩ := decode_eq_ok hi
    exact List.mem_cons_of_mem iw (hraws.subset (List.mem_map_of_mem hp))

theorem isCellValue_resolve {p : Param} {v : Word} (hp : isCellValue Config.W p.raw = true) (hv : resolve s p = .ok v) :
    isCellValue Config.W v = true := by
  obtain ⟨-, rfl⟩ | ⟨-, hread⟩ := resolve_eq_ok.1 hv
  · exact hp
  · exact hs.cellsFit p.raw v hread

/-! ### The parts of a step -/

theorem inv_setMem {m : Memory} {a : Int} {v : Word} (hv : isCellValue Config.W v = true)
    (hm : s.mem.write a v = some m) : (s.setMem m).Inv := by
  obtain ⟨-, hlen, hread⟩ := Memory.write_eq_some hm
  refine { hs with memForm := Memory.write_wf hs.memForm hm, lenBound := ?len, cellsFit := fun b x hx => ?cells,
                   pcRange := ?pc, faultLegal := ?legal }
  case len => simpa [hlen] using hs.lenBound
  case cells =>
    rw [State.setMem_mem, hread] at hx
    split at hx
    · cases hx
      exact hv
    · exact hs.cellsFit b x hx
  case pc => simpa [hlen] using hs.pcRange
  case legal => simpa [hlen] using hs.faultLegal

theorem inv_setInq {q : List Word} (hq : ∀ v ∈ q, isCellValue Config.W v = true) : (s.setInq q).Inv :=
  { hs with inqFits := hq }

theorem inv_appendOutput {v : Word} (hv : isCellValue Config.W v = true) : (appendOutput v s).Inv :=
  { hs with outFits := List.forall_mem_append.2 ⟨hs.outFits, by simpa using hv⟩ }

theorem inv_of_effect {u : State} {i : Instr} (hi : decode (fetch s) = .ok i) (h : Effect s i u) : u.Inv := by
  cases h with
  | add _ _ hv hm => exact inv_setMem hs hv hm
  | mul _ _ hv hm => exact inv_setMem hs hv hm
  | input hq hm =>
    have hfits := hs.inqFits
    rw [hq, List.forall_mem_cons] at hfits
    obtain ⟨hv, hrest⟩ := hfits
    exact inv_setMem (inv_setInq hs hrest) hv hm
  | output hv => exact inv_appendOutput hs (isCellValue_resolve hs (isCellValue_operand hs hi (List.mem_singleton_self _)) hv)

theorem inv_setRun_halted (hrun : s.run = .running) : (s.setRun .halted).Inv :=
  { hs with faultIffFaulted := by simp [kind_none_of_running hs hrun] }

/-- A record of no fault is legal wherever PC is. -/
theorem inv_setPc {n : Nat} (hrun : s.run = .running) (hn : n < s.mem.len) (heven : n % 2 = 0) : (s.setPc n).Inv := by
  have hkind := kind_none_of_running hs hrun
  refine { hs with pcRange := lt_max_of_lt_left hn, pcEven := heven, faultLegal := ?legal }
  case legal =>
    have hlegal := hs.faultLegal
    simp only [FaultRecord.legal, hkind, State.setPc_fault] at hlegal ⊢
    exact hlegal

theorem inv_advance {w : Nat} (hrun : s.run = .running) (heven : w % 2 = 0) : (advance w s).Inv := by
  have hpc := hs.pcEven
  rw [advance]
  split
  · exact inv_setRun_halted hs hrun
  · exact inv_setPc hs hrun (by omega) (by omega)

theorem inv_takeFault {r : FaultRecord} (hkind : r.kind ≠ .none) (hlegal : r.legal s.mem.len s.pc)
    (haddr : isCellValue Config.W r.address = true) : (takeFault r s).Inv :=
  { hs with faultIffFaulted := by simp [hkind], faultLegal := hlegal, faultAddress := haddr }

end

/-! ### The payloads of the faults -/

theorem opcodeField_bounds (iw : Word) : -99 ≤ opcodeField iw ∧ opcodeField iw ≤ 99 := by
  rcases lt_or_ge iw 0 with hneg | hnonneg
  · have := opcodeField_of_neg hneg
    omega
  · rw [opcodeField_of_nonneg hnonneg]
    omega

theorem modeDigit_bounds {iw : Word} (h : 0 ≤ iw) (k : Nat) : 0 ≤ modeDigit k iw ∧ modeDigit k iw ≤ 9 := by
  rw [modeDigit_of_nonneg h]
  omega

section
variable {s : State} (hs : s.Inv)
include hs

theorem decodeFault_legal {e : DecodeError} (he : decode (fetch s) = .error e) :
    (decodeFault s.pc e).legal s.mem.len s.pc ∧ isCellValue Config.W (decodeFault s.pc e).address = true := by
  have hpcRange := hs.pcRange
  have hpc : isCellValue Config.W (s.pc : Int) = true := isCellValue_of_le_len hs hpcRange.le
  obtain ⟨hlen, hnil⟩ | ⟨iw, rest, hread, hcons, hrest⟩ := fetch_cases s
  · rw [hnil] at he
    obtain rfl : DecodeError.missingCell 0 = e := Except.error.inj he
    exact ⟨⟨rfl, .inr (by simpa [decodeFault, FaultRecord.outOfBounds] using hlen)⟩,
      by simpa [decodeFault, FaultRecord.outOfBounds] using hpc⟩
  · rw [hcons, decode_eq_error_iff] at he
    obtain ⟨hnone, rfl⟩ | ⟨o, ho, ⟨k, hk, hne0, hne1, -, rfl⟩ | ⟨-, hshort, rfl⟩⟩ := he
    · have hbounds := opcodeField_bounds iw
      have hne99 : opcodeField iw ≠ 99 := hnone .halt
      have hopcode : opcodeOf (opcodeField iw) = none :=
        Option.eq_none_iff_forall_ne_some.2 fun o ho => hnone o (opcodeOf_eq_some.1 ho)
      exact ⟨⟨hopcode, hbounds.1, by change opcodeField iw ≤ 98; omega, rfl⟩, hpc⟩
    · have hnonneg : 0 ≤ iw := by
        by_contra hneg
        exact no_opcode_of_neg (not_le.1 hneg) o ho
      have hbounds := modeDigit_bounds hnonneg k
      exact ⟨⟨by change 2 ≤ modeDigit k iw; omega, hbounds.2, rfl⟩, hpc⟩
    · have hvalid : s.mem.valid s.pc = true := by rw [← Memory.read_isSome, hread, Option.isSome_some]
      have hin := (Memory.valid_iff _ _).1 hvalid
      have harity := arity_le_three o
      have haddr : (s.pc : Int) + (rest.length + 1 : Nat) = s.mem.len := by omega
      have hrecord : decodeFault s.pc (.missingCell (rest.length + 1)) = .outOfBounds s.mem.len :=
        congrArg FaultRecord.outOfBounds haddr
      rw [hrecord]
      exact ⟨⟨rfl, .inr le_rfl⟩, isCellValue_of_le_len hs (le_max_left ..)⟩

theorem raisedRecord_legal {i : Instr} {r : FaultRecord} (hi : decode (fetch s) = .ok i) (h : RaisedRecord s i r) :
    r.legal s.mem.len s.pc ∧ isCellValue Config.W r.address = true := by
  obtain ⟨p, hp, hnot, rfl⟩ | rfl | rfl := h
  · have houtside : p.raw < 0 ∨ (s.mem.len : Int) ≤ p.raw := (not_and_or.1 hnot).imp not_le.1 not_lt.1
    exact ⟨⟨rfl, houtside⟩, isCellValue_operand hs hi hp⟩
  · exact ⟨⟨rfl, rfl⟩, (by decide : isCellValue Config.W 0 = true)⟩
  · exact ⟨⟨rfl, rfl⟩, isCellValue_of_le_len hs hs.pcRange.le⟩

theorem inv_of_stepFault {r : FaultRecord} (h : StepFault s r) : (takeFault r s).Inv := by
  have hkind := h.kind_ne_none
  obtain ⟨e, he, rfl⟩ | ⟨i, hi, hr⟩ := h
  · obtain ⟨hlegal, haddr⟩ := decodeFault_legal hs he
    exact inv_takeFault hs hkind hlegal haddr
  · obtain ⟨hlegal, haddr⟩ := raisedRecord_legal hs hi hr
    exact inv_takeFault hs hkind hlegal haddr

theorem inv_step {t : State} (h : step s = .next t) : t.Inv := by
  obtain ⟨hrun, ⟨e, he, rfl⟩ | ⟨i, hi, hexec⟩⟩ := step_eq_next.1 h
  · exact inv_of_stepFault hs (.inl ⟨e, he, rfl⟩)
  · obtain ⟨-, he⟩ | ⟨r, hr, he⟩ | ⟨u, hu, he⟩ := exec_cases i s <;> cases hexec.symm.trans he
    · exact inv_setRun_halted hs hrun
    · exact inv_of_stepFault hs (.inr ⟨i, hi, raisedRecord_of_raises hr⟩)
    · have heven : i.width % 2 = 0 := by rw [width_eq_widthOf]; obtain h | h := effect_widthOf hu <;> rw [h]
      exact inv_advance (inv_of_effect hs hi hu) ((effect_run hu).trans hrun) heven

end

/-! ### The launch -/

theorem mem_of_read_ofImage {image : List Word} {a : Int} {v : Word} (h : (Memory.ofImage image).read a = some v) :
    v ∈ image := by
  have hvalid : (Memory.ofImage image).valid a = true := by rw [← Memory.read_isSome, h, Option.isSome_some]
  obtain ⟨hnonneg, -⟩ := (Memory.valid_iff _ _).1 hvalid
  obtain ⟨k, rfl⟩ := Int.eq_ofNat_of_zero_le hnonneg
  rw [Memory.read_ofImage] at h
  exact List.mem_of_getElem? h

theorem inv_of_launch {image inputs : List Word} {s : State} (h : launch image inputs = some s) : s.Inv := by
  obtain ⟨hok, rfl⟩ := launch_eq_some.1 h
  obtain ⟨hfits, hlen⟩ := (launchable_iff image inputs).1 hok
  have hcell (v : Word) (hv : v ∈ image ++ inputs) : isCellValue Config.W v = true := isCellValue_W_iff.2 (hfits v hv)
  exact {
    memForm := Memory.wf_ofImage image
    lenBound := by rw [maxLen_W]; exact hlen
    cellsFit := fun a v hv => hcell v (List.mem_append_left _ (mem_of_read_ofImage hv))
    inqFits := fun v hv => hcell v (List.mem_append_right _ hv)
    outFits := List.forall_mem_nil _
    pcRange := lt_max_of_lt_right Nat.one_pos
    pcEven := rfl
    faultIffFaulted := by simp [FaultRecord.clear]
    faultLegal := ⟨rfl, rfl⟩
    faultAddress := (by decide : isCellValue Config.W 0 = true) }

/-! ### Runs -/

theorem inv_run {k : Nat} {s t : State} (h : Sys2Proof.core.run k s = .next t) : s.Inv → t.Inv :=
  run_induction (P := fun _ s t => s.Inv → t.Inv) (fun _ hs => hs) (fun _ _ _ _ hstep ih hs => ih (inv_step hs hstep)) k s t h

/-- R34, 4: t's queue is s's without values from its front, its log is s's with values at its end, k together at most. -/
def MovesAtMost (k : Nat) (s t : State) : Prop :=
  ∃ taken emitted, s.inq = taken ++ t.inq ∧ t.out = s.out ++ emitted ∧ emitted.length + taken.length ≤ k

theorem movesAtMost_refl (s : State) : MovesAtMost 0 s s := ⟨[], [], rfl, (List.append_nil _).symm, le_rfl⟩

theorem MovesAtMost.trans {j k : Nat} {s u t : State} (h₁ : MovesAtMost j s u) (h₂ : MovesAtMost k u t) :
    MovesAtMost (k + j) s t := by
  obtain ⟨taken₁, emitted₁, hin₁, hout₁, hj⟩ := h₁
  obtain ⟨taken₂, emitted₂, hin₂, hout₂, hk⟩ := h₂
  refine ⟨taken₁ ++ taken₂, emitted₁ ++ emitted₂, by rw [hin₁, hin₂, List.append_assoc],
    by rw [hout₂, hout₁, List.append_assoc], ?_⟩
  simp only [List.length_append]
  omega

/-- No step both takes a value and emits one. -/
theorem step_movesAtMost_one {s t : State} (h : step s = .next t) : MovesAtMost 1 s t := by
  obtain hinq | ⟨dest, v, hi, hpop, -⟩ := step_inq h <;> obtain hout | ⟨src, w, hj, -, happend⟩ := step_out h
  · exact ⟨[], [], hinq.symm, by rw [hout, List.append_nil], Nat.zero_le 1⟩
  · exact ⟨[], [w], hinq.symm, happend, le_rfl⟩
  · exact ⟨[v], [], hpop, by rw [hout, List.append_nil], le_rfl⟩
  · exact nomatch Except.ok.inj (hi.symm.trans hj)

/-! ### The statements -/

/-- Settles O40: a fault's record is legal where it is taken, an effect stores and emits cell values only, and the sequencer
moves PC by an even width inside memory. -/
theorem stepKeepsInvariants : Obligations.StepKeepsInvariants :=
  fun _ _ hs h => inv_step hs h

/-- Settles O41: R164 admits cell values only and bounds LEN, and R160 sets the rest. -/
theorem launchEstablishesInvariants : Obligations.LaunchEstablishesInvariants :=
  fun _ _ _ => inv_of_launch

/-- Settles O43: the launch gives the invariants and every step keeps them; a step moves one value through the channels at
most. -/
theorem everyRunKeepsInvariants : Obligations.EveryRunKeepsInvariants := by
  intro image inputs k s t hlaunch hrun
  have hmoves : MovesAtMost k s t := run_induction (P := MovesAtMost) movesAtMost_refl
    (fun _ _ _ _ hstep ih => (step_movesAtMost_one hstep).trans ih) k s t hrun
  refine ⟨inv_run hrun (inv_of_launch hlaunch), ?_⟩
  obtain ⟨taken, emitted, hin, hout, hle⟩ := hmoves
  obtain ⟨-, rfl⟩ := launch_eq_some.1 hlaunch
  rw [List.nil_append] at hout
  exact ⟨taken, hin, by rw [hout]; exact hle⟩

/-- Settles O42: the reset state is a launched one. -/
theorem resetHasInvariants : Obligations.ResetHasInvariants := inv_of_launch launch_empty

end Sys2Proof.Proofs
end


section
/-! SUPPORT. Whole runs: where they stop, that they end, and their agreement with the unbounded integers, R115 to R117 of
spec/43_control.md and R95 of spec/41_arithmetic.md. -/

open Sys2Proof Sys2Proof.Machine Sys2Proof.Claims

namespace Sys2Proof.Proofs

/-- R116: a run from an ended state goes nowhere. -/
theorem run_of_ended {k : Nat} {s t : State} (hend : s.run ≠ .running) (h : Sys2Proof.core.run k s = .next t) : t = s := by
  cases k with
  | zero => exact ((run_zero s t).1 h).symm
  | succ k =>
    obtain ⟨u, hstep, -⟩ := (run_succ k s t).1 h
    exact absurd (running_of_step hstep) hend

theorem safeFrom_of_step_to_halted {s u : State} (hrun : s.run = .running) (hstep : step s = .next u)
    (hhalted : u.run = .halted) : SafeFrom s := by
  intro k t h
  cases k with
  | zero =>
    obtain rfl := (run_zero s t).1 h
    simp [hrun]
  | succ k =>
    obtain ⟨u', hstep', hk⟩ := (run_succ k s t).1 h
    obtain rfl := Host.Outcome.next.inj (hstep.symm.trans hstep')
    rw [run_of_ended (by simp [hhalted]) hk, hhalted]
    exact RunState.noConfusion

/-! ### Termination -/

/-- R117: by induction on what is left of memory above PC, of which every step that goes on uses up 2 cells at least. -/
theorem run_ends (n : Nat) {s : State} (hn : s.mem.len - s.pc ≤ n) (hrun : s.run = .running) :
    ∃ (k : Nat) (t : State), 1 ≤ k ∧ k ≤ max 1 ((s.mem.len - s.pc + 1) / 2) ∧
      Sys2Proof.core.run k s = .next t ∧ t.run ≠ .running := by
  induction n using Nat.strong_induction_on generalizing s with
  | h n ih =>
    obtain ⟨u, hu⟩ := step_of_running hrun
    by_cases hgoes : u.run = .running
    · have hlen := step_len hu
      obtain ⟨-, i, -, hwidth, hpc, hlt⟩ | ⟨hr, -⟩ | ⟨hr, -⟩ := step_successors hu
      · obtain ⟨k, t, -, hk, hkt, hend⟩ := ih (u.mem.len - u.pc) (by omega) le_rfl hgoes
        exact ⟨k + 1, t, Nat.le_add_left 1 k, by omega, (run_succ k s t).2 ⟨u, hu, hkt⟩, hend⟩
      · exact nomatch hr.symm.trans hgoes
      · exact nomatch hr.symm.trans hgoes
    · exact ⟨1, u, le_rfl, le_max_left .., (run_succ 0 s u).2 ⟨u, hu, rfl⟩, hgoes⟩

/-! ### The machine without the overflow check -/

/-- R95: the check changes nothing but to raise the overflow. -/
theorem arithmetic_unchecked (w : Nat) (op : Word → Word → Int) (lhs rhs dest : Param) (s : State) :
    arithmetic (narrow w) op lhs rhs dest s = .error (.arithmeticOverflow s.pc) ∨
    arithmetic some op lhs rhs dest s = arithmetic (narrow w) op lhs rhs dest s := by
  cases h : arithmetic (narrow w) op lhs rhs dest s with
  | ok t =>
    obtain ⟨a, b, v, m, ha, hb, hv, hm, rfl⟩ := arithmetic_eq_ok.1 h
    obtain ⟨-, rfl⟩ := narrow_eq_some.1 hv
    exact .inr (arithmetic_eq_ok.2 ⟨a, b, _, m, ha, hb, rfl, hm, rfl⟩)
  | error r =>
    obtain hlhs | hrhs | ⟨-, -, -, -, -, rfl⟩ | ⟨a, b, v, ha, hb, hv, hdest⟩ := arithmetic_eq_error.1 h
    · exact .inr (arithmetic_eq_error.2 (.inl hlhs))
    · exact .inr (arithmetic_eq_error.2 (.inr (.inl hrhs)))
    · exact .inl rfl
    · exact .inr (arithmetic_eq_error.2 (.inr (.inr (.inr ⟨a, b, _, ha, hb, rfl, hdest⟩))))

/-- Both machines execute alike, unless the checked one takes the overflow. -/
theorem execUnbounded_agrees (i : Instr) (s : State) :
    exec i s = .next (takeFault (.arithmeticOverflow s.pc) s) ∨ execUnbounded i s = exec i s := by
  cases i with
  | add lhs rhs dest =>
    exact (arithmetic_unchecked Config.W exactSum lhs rhs dest s).imp (congrArg (finish (Opcode.width .add) s))
      (congrArg (finish (Opcode.width .add) s))
  | mul lhs rhs dest =>
    exact (arithmetic_unchecked Config.W exactProduct lhs rhs dest s).imp (congrArg (finish (Opcode.width .mul) s))
      (congrArg (finish (Opcode.width .mul) s))
  | input dest => exact .inr rfl
  | output src => exact .inr rfl
  | halt => exact .inr rfl

theorem stepUnbounded_agrees (s : State) :
    step s = .next (takeFault (.arithmeticOverflow s.pc) s) ∨ stepUnbounded s = step s := by
  cases hrun : s.run with
  | running =>
    cases hd : decode (fetch s) with
    | error e => exact .inr (by simp only [stepUnbounded, step, hrun, hd])
    | ok i => simpa only [stepUnbounded, step, hrun, hd] using execUnbounded_agrees i s
  | halted => exact .inr (by simp only [stepUnbounded, step, hrun])
  | faulted => exact .inr (by simp only [stepUnbounded, step, hrun])

/-- A run that does not end in the overflow never took it, for a taken fault ends the run. -/
theorem unbounded_run_agrees (k : Nat) (s t : State) (h : Sys2Proof.core.run k s = .next t) :
    t.fault.kind ≠ .arithmeticOverflow → unboundedCore.run k s = .next t := by
  induction k generalizing s with
  | zero =>
    intro _
    obtain rfl := (run_zero s t).1 h
    rfl
  | succ k ih =>
    intro hkind
    obtain ⟨u, hstep, hk⟩ := (run_succ k s t).1 h
    obtain hoverflow | hagree := stepUnbounded_agrees s
    · obtain rfl := Host.Outcome.next.inj (hstep.symm.trans hoverflow)
      obtain rfl := run_of_ended (by rw [takeFault_run]; exact RunState.noConfusion) hk
      exact absurd rfl hkind
    · exact (run_succ_of unboundedCore k s t).2 ⟨u, hagree.trans hstep, ih u hk hkind⟩

/-! ### The statements -/

/-- Settles O32: the word decodes to HALT whatever follows it, and HALT's step ends the run Halted. -/
theorem runAtHaltWordIsSafe : Obligations.RunAtHaltWordIsSafe := by
  intro s iw hrun hread hnonneg h99
  obtain ⟨rest, hfetch, -⟩ := fetch_eq_cons hread
  have hdecode : decode (fetch s) = .ok .halt := hfetch ▸ decode_of_halt_word rest hnonneg h99
  exact safeFrom_of_step_to_halted hrun (step_of_decode hrun hdecode) rfl

/-- Settles O44: PC grows by 2 at least in every step that goes on, and stays below LEN. -/
theorem everyRunTerminates : Obligations.EveryRunTerminates :=
  fun s hrun _ => run_ends (s.mem.len - s.pc) le_rfl hrun

/-- Settles O45: step by step the two machines agree, up to an overflow that the run would have ended in. -/
theorem runsAgreeWithUnboundedIntegers : Obligations.RunsAgreeWithUnboundedIntegers := unbounded_run_agrees

end Sys2Proof.Proofs
end
